-- ==== Sys2Proof/Word.lean ====
section
/-! DEFINITION. The word types of NSFC (10_state.md R16 to R19) and the two-armed result of a
pure-layer function (00_scope.md R9, `Ok(v)` / `Err(e)`). -/

namespace Sys2Proof

/-- A byte: 8 bits, an unsigned value 0..255 (R8). -/
abbrev Byte := BitVec 8

/-- A 16-bit register or field: a header, `code16`, a length register. -/
abbrev Half := BitVec 16

/-- A frame type, 0..7 (R50: header bits 15:13). -/
abbrev FrameType := BitVec 3

/-- The length field of a header (R50: header bits 12:0). -/
abbrev LenField := BitVec 13

/-- A sample as the 32-bit pattern that `R_SAMPLE` holds (R17). -/
abbrev Sample := BitVec 32

/-- The two results of a pure-layer function (R9): `Ok(v)` or `Err(e)`. -/
inductive Result (ε α : Type) where
  | ok (v : α)
  | err (e : ε)
deriving DecidableEq, Repr

end Sys2Proof
end

