-- ==== Sys2Proof/Config.lean ====
section
/-! DEFINITION. The implementation parameters P1 to P5 of 00_scope.md R6 with their defaults, and the one
free value of the model: what a buffer byte that nothing has written since reset holds (10_state.md R27). -/

namespace Sys2Proof

/-- The three buffers, each an address space of its own (20_memory.md R35). -/
inductive Buf where
  | ibuf
  | obuf
  | bbuf
deriving DecidableEq, Repr

/-- The parameters of one NSFC (R6). They are no state of the hardware (R15): no command, no host write and
no reset changes them (R121). The record is plain data and every rule is written for any value of it. -/
structure Config where
  /-- P1 `CAP`: the hard cap on a frame's total length, 2..65535. -/
  cap : Nat
  /-- P2 `isData`: entry `t` says whether frame type `t` is data-bearing (R7). -/
  dataTypes : Vector Bool 8
  /-- P3 `ITEMS`: the recognised item codes (R63). -/
  items : List Half
  /-- P4 `SMP_SIGN_EXTEND` (R97). -/
  signExtend : Bool
deriving DecidableEq, Repr

/-- P5 `NMAX`: the capacity in bytes of IBUF and BBUF, fixed at 2^16 - 1 (R6, R18). -/
def Config.nmax : Nat := 65535

/-- `LENF_MAX`: the largest value of the 13-bit length field; no parameter (R6). -/
def Config.lenfMax : Nat := 8191

/-- The names R63 gives the item codes of its default table. -/
inductive ItemName where
  | none
  | receiverState
  | receiverFrequency
  | rfFilter
  | adModes
  | iqOutputDataSampleRate
deriving DecidableEq, Repr

/-- The default table of item codes (R63), name by name. -/
def Config.defaultItems : List (ItemName × Half) :=
  [(.none, 0x0000), (.receiverState, 0x0018), (.receiverFrequency, 0x0020), (.rfFilter, 0x0044),
    (.adModes, 0x008A), (.iqOutputDataSampleRate, 0x00B8)]

/-- The parameters at the defaults of R6: CAP 8192, types 4 to 7 data-bearing, the table of R63,
zero extension. -/
def Config.default : Config where
  cap := 8192
  dataTypes := #v[false, false, false, false, true, true, true, true]
  items := Config.defaultItems.map Prod.snd
  signExtend := false

/-- FREE VALUE (log entry 2): what byte `index` of buffer `buf` holds when nothing has written it since the
`epoch`-th reset. R27: an arbitrary value fixed at reset, never assumed to be 0. It has no body: nothing can
be proved of its value. -/
opaque Config.drawByte (epoch : Nat) (buf : Buf) (index : Nat) : Byte

end Sys2Proof
end

