-- ==== Sys2Proof/Syntax.lean ====
section
/-! DEFINITION. The instructions: one constructor for each of the 20 rows of spec/opcode_table.json
(30_encoding.md R66): eight rows of format CMD, eight of format HDR16, four of format WIDTH8. -/

namespace Sys2Proof

/-- The rows of the opcode table. The CMD rows are the six commands and the two reserved codes (R58). The
HDR16 rows are DEC as it dispatches on a frame header: the row is the header's type and the operand is its
length field, so the term IS the header (R57, R66). The WIDTH8 rows are SMPSTART at one of the four
legal widths (R59, R65). A length field is a `BitVec 13`, so no ill-formed instruction can be written down. -/
inductive Instr where
  | hdrpack
  | hdrunpk
  | enc
  | dec
  | smpstart
  | smpnext
  | reserved6
  | reserved7
  | decT0 (lenf : LenField)
  | decT1 (lenf : LenField)
  | decT2 (lenf : LenField)
  | decT3 (lenf : LenField)
  | decT4 (lenf : LenField)
  | decT5 (lenf : LenField)
  | decT6 (lenf : LenField)
  | decT7 (lenf : LenField)
  | smpstartW8
  | smpstartW16
  | smpstartW24
  | smpstartW32
deriving DecidableEq, Repr

/-- The header fields (type, length field) that an HDR16 row stands for; none for the other rows (R57). -/
def Instr.headerFields : Instr → Option (FrameType × LenField)
  | .decT0 l => some (0, l)
  | .decT1 l => some (1, l)
  | .decT2 l => some (2, l)
  | .decT3 l => some (3, l)
  | .decT4 l => some (4, l)
  | .decT5 l => some (5, l)
  | .decT6 l => some (6, l)
  | .decT7 l => some (7, l)
  | .hdrpack | .hdrunpk | .enc | .dec | .smpstart | .smpnext | .reserved6 | .reserved7
  | .smpstartW8 | .smpstartW16 | .smpstartW24 | .smpstartW32 => none

/-- The sample width that a WIDTH8 row stands for; none for the other rows (R59). -/
def Instr.sampleWidth : Instr → Option Byte
  | .smpstartW8 => some 8
  | .smpstartW16 => some 16
  | .smpstartW24 => some 24
  | .smpstartW32 => some 32
  | .hdrpack | .hdrunpk | .enc | .dec | .smpstart | .smpnext | .reserved6 | .reserved7
  | .decT0 _ | .decT1 _ | .decT2 _ | .decT3 _ | .decT4 _ | .decT5 _ | .decT6 _ | .decT7 _ => none

end Sys2Proof
end

