-- ==== Sys2Proof/Machine/State.lean ====
section
/-! DEFINITION. The state of NSFC: every register, buffer and iterator field of 10_state.md, the parameters of
the instance, and the host's actions still to come. -/

namespace Sys2Proof.Machine

/-- The error kinds (60_exceptions.md R103). An error is a result of a command, never a stop (R112). -/
inductive ErrorKind where
  | framing
  | unknownItemCode
  | unsupportedSampleWidth
  | badCommand
deriving DecidableEq, Repr

/-- The commands as owners of a result group (R20, R107); both reserved codes own `STATUS` alone. -/
inductive ResultGroup where
  | hdrpack
  | hdrunpk
  | enc
  | dec
  | smpstart
  | smpnext
  | reserved
deriving DecidableEq, Repr

/-- The registers the host can name: operand registers (R16), result registers (R17), length registers (R18)
and `STATUS` (R22). The iterator registers are hidden from the host (R19). -/
inductive Reg where
  | aType | aLen | aHdr | aCode | aWidth
  | rHdr | rType | rLen | rItem | rItemV | rSeq | rSeqV | rSample
  | ilen | olen | blen
  | status
deriving DecidableEq, Repr

/-- The width in bits of a register (R16, R17, R18, R22). -/
def Reg.width : Reg → Nat
  | .aType => 3
  | .aLen => 16
  | .aHdr => 16
  | .aCode => 16
  | .aWidth => 8
  | .rHdr => 16
  | .rType => 3
  | .rLen => 16
  | .rItem => 16
  | .rItemV => 1
  | .rSeq => 16
  | .rSeqV => 1
  | .rSample => 32
  | .ilen => 16
  | .olen => 16
  | .blen => 16
  | .status => 8

/-- What the host can do to NSFC (R13, R24, R64, R119): issue a command code, write or read a register or a
buffer byte, reset. -/
inductive HostAction where
  /-- Present a command code at the command port; presenting it is the issue (R24). -/
  | issue (op : BitVec 3)
  /-- `WR`: write a register. The value fits the register's width (R9). -/
  | write (r : Reg) (v : BitVec r.width)
  /-- Write one byte of a buffer, at an index below NMAX (R18, R41). -/
  | writeByte (b : Buf) (index : Fin 65535) (v : Byte)
  /-- `RD`: read a register; no side effect (R42). -/
  | read (r : Reg)
  /-- Read one byte of a buffer; no side effect (R42). -/
  | readByte (b : Buf) (index : Fin 65535)
  /-- The one external reset (R119). -/
  | reset
deriving DecidableEq, Repr

/-- The bytes of one buffer that something has written, by index, strictly rising. An index that is not listed
holds the draw of `Config.drawByte` (R27); since no byte is known to equal a draw, every written byte is
listed (log entry 3). -/
abbrev Memory := List Host.Cell

/-- The state. Register names are the spec's, in camel case. -/
structure State where
  /-- The parameters of this instance (R6); never changed. -/
  cfg : Config
  /-- `A_TYPE` (R16). -/
  aType : FrameType
  /-- `A_LEN` (R16). -/
  aLen : Half
  /-- `A_HDR` (R16). -/
  aHdr : Half
  /-- `A_CODE` (R16). -/
  aCode : Half
  /-- `A_WIDTH` (R16). -/
  aWidth : Byte
  /-- `R_HDR` (R17). -/
  rHdr : Half
  /-- `R_TYPE` (R17). -/
  rType : FrameType
  /-- `R_LEN` (R17). -/
  rLen : Half
  /-- `R_ITEM` (R17). -/
  rItem : Half
  /-- `R_ITEM_V` (R17). -/
  rItemV : BitVec 1
  /-- `R_SEQ` (R17). -/
  rSeq : Half
  /-- `R_SEQ_V` (R17). -/
  rSeqV : BitVec 1
  /-- `R_SAMPLE` (R17). -/
  rSample : Sample
  /-- `IBUF` (R18). -/
  ibuf : Memory
  /-- `ILEN` (R18). -/
  ilen : Half
  /-- `OBUF` (R18). -/
  obuf : Memory
  /-- `OLEN` (R18). -/
  olen : Half
  /-- `BBUF` (R18). -/
  bbuf : Memory
  /-- `BLEN` (R18). -/
  blen : Half
  /-- `S_ACTIVE` (R19). -/
  sActive : BitVec 1
  /-- `S_STRIDE` (R19). -/
  sStride : BitVec 3
  /-- `S_POS` (R19). -/
  sPos : Half
  /-- `STATUS` (R22). -/
  status : Byte
  /-- THE MODEL'S OWN: how many resets have been applied since State.reset, the epoch of the draws of R27. -/
  epoch : Nat
  /-- THE MODEL'S OWN: the host's actions still to come, in the one total order of R44. -/
  pending : List HostAction
deriving DecidableEq, Repr

/-- Why the machine can stop with a fault: never. Nothing in NSFC is stuck and an error is a result in
`STATUS`, not a stop (R112, R118, R131), so this type has no constructor. -/
inductive Fault where
deriving DecidableEq, Repr

/-- Why the machine can refuse an instruction. -/
inductive Refusal where
  /-- Raised by exec alone, for an instruction that has no meaning yet. Safe: nothing is claimed of it. No
  arm raises it in this model. -/
  | notModelled (mnemonic : String)
deriving DecidableEq, Repr

/-- The reset state of an instance with parameters `cfg` (R26): every register, length and iterator field 0,
`STATUS` 0x00, buffer bytes unspecified, which is the draw of `epoch` (R27). The parameters are not reset
state (R121) and the host's further actions are the host's. -/
def State.resetOf (cfg : Config) (epoch : Nat) (pending : List HostAction) : State where
  cfg := cfg
  aType := 0
  aLen := 0
  aHdr := 0
  aCode := 0
  aWidth := 0
  rHdr := 0
  rType := 0
  rLen := 0
  rItem := 0
  rItemV := 0
  rSeq := 0
  rSeqV := 0
  rSample := 0
  ibuf := []
  ilen := 0
  obuf := []
  olen := 0
  bbuf := []
  blen := 0
  sActive := 0
  sStride := 0
  sPos := 0
  status := 0x00
  epoch := epoch
  pending := pending

/-- The machine right after reset, with the parameters at their defaults and the host yet to act. -/
def State.reset : State := State.resetOf Config.default 0 []

end Sys2Proof.Machine
end

