-- ==== Sys2Proof/Machine/Flags.lean ====
section
/-! DEFINITION. The STATUS register: its fields and every value a command writes (10_state.md R22,
60_exceptions.md R104). -/

namespace Sys2Proof.Machine

/-- The number of an error kind, as `STATUS.ERR` holds it (R104). -/
def ErrorKind.code : ErrorKind → BitVec 3
  | .framing => 1
  | .unknownItemCode => 2
  | .unsupportedSampleWidth => 3
  | .badCommand => 7

/-- A STATUS value from its fields: bits 7:5 zero, `ERR` in 4:2, `EOS` in 1, `OK` in 0 (R22). -/
def statusOf (err : BitVec 3) (eos ok : Bool) : Byte :=
  (0 : BitVec 3) ++ err ++ BitVec.ofBool eos ++ BitVec.ofBool ok

/-- Success: `OK = 1`, `EOS = 0`, `ERR = 0`. -/
def statusSuccess : Byte := statusOf 0 false true

/-- Success at the end of a sequence: `OK = 1`, `EOS = 1`, `ERR = 0`. -/
def statusEnd : Byte := statusOf 0 true true

/-- Failure: `STATUS <- (ERR << 2)`, so `OK = 0` and `EOS = 0` (R107). -/
def statusFailure (e : ErrorKind) : Byte := statusOf e.code false false

/-- `STATUS.OK` (R22). -/
def statusOK (status : Byte) : Bool := status.getLsbD 0

/-- `STATUS.EOS` (R22). -/
def statusEOS (status : Byte) : Bool := status.getLsbD 1

/-- `STATUS.ERR` (R22). -/
def statusERR (status : Byte) : BitVec 3 := status.extractLsb' 2 3

end Sys2Proof.Machine
end

