-- ==== Sys2Proof/Decode.lean ====
section
/-! DEFINITION. Field assembly, decoding and encoding of the three formats CMD, HDR16 and WIDTH8
(30_encoding.md R50, R51, R57 to R60, R66). -/

namespace Sys2Proof

/-- `le16(b0, b1) = b0 + 256 × b1` (R9, R37). -/
def le16 (b0 b1 : Byte) : Half := b1 ++ b0

/-- The byte of a 16-bit field at the lower index: bits 7:0 (R37). -/
def loByte (h : Half) : Byte := h.extractLsb' 0 8

/-- The byte of a 16-bit field at the higher index: bits 15:8 (R37). -/
def hiByte (h : Half) : Byte := h.extractLsb' 8 8

/-- `type = hdr[15:13]` (R50). -/
def headerType (hdr : Half) : FrameType := hdr.extractLsb' 13 3

/-- `lenf = hdr[12:0]` (R50). -/
def headerLenf (hdr : Half) : LenField := hdr.extractLsb' 0 13

/-- `hdr = (type << 13) | lenf` (R50). -/
def mkHeader (t : FrameType) (lenf : LenField) : Half := t ++ lenf

/-- A word of the opcode table in its format (R66): a command code on the command port, a frame header at
bytes 0 and 1 of IBUF, a sample width in `A_WIDTH`. -/
inductive TableWord where
  | cmd (op : BitVec 3)
  | hdr16 (hdr : Half)
  | width8 (w : Byte)
deriving DecidableEq, Repr

/-- Why the decoder refuses a word. -/
inductive Reject where
  /-- No byte at all. -/
  | noBytes
  /-- A byte that is neither a 3-bit command code nor a legal sample width. -/
  | neitherCommandNorWidth
  /-- A sample width outside 8, 16, 24, 32 (R62). -/
  | unsupportedWidth
  /-- More bytes than any row of the table has. -/
  | tooLong
deriving DecidableEq, Repr

/-- Format CMD: all eight codes have a row (R58). -/
def decodeCmd (op : BitVec 3) : Instr :=
  match op.toNat with
  | 0 => .hdrpack
  | 1 => .hdrunpk
  | 2 => .enc
  | 3 => .dec
  | 4 => .smpstart
  | 5 => .smpnext
  | 6 => .reserved6
  | _ => .reserved7

/-- The HDR16 row of a type, with its length field (R57). -/
def headerRow (t : FrameType) (lenf : LenField) : Instr :=
  match t.toNat with
  | 0 => .decT0 lenf
  | 1 => .decT1 lenf
  | 2 => .decT2 lenf
  | 3 => .decT3 lenf
  | 4 => .decT4 lenf
  | 5 => .decT5 lenf
  | 6 => .decT6 lenf
  | _ => .decT7 lenf

/-- Format HDR16: every 16-bit value is one of the eight types with some length field (R57, R61). -/
def decodeHeader (hdr : Half) : Instr := headerRow (headerType hdr) (headerLenf hdr)

/-- Format WIDTH8: four of the 256 values have a row (R59). -/
def decodeWidth (w : Byte) : Result Reject Instr :=
  match w.toNat with
  | 8 => .ok .smpstartW8
  | 16 => .ok .smpstartW16
  | 24 => .ok .smpstartW24
  | 32 => .ok .smpstartW32
  | _ => .err .unsupportedWidth

/-- The decoder on a word whose format is known. -/
def decodeWord : TableWord → Result Reject Instr
  | .cmd op => .ok (decodeCmd op)
  | .hdr16 hdr => .ok (decodeHeader hdr)
  | .width8 w => decodeWidth w

/-- The decoder on bytes, total. Two bytes are a header, low byte first (R51). One byte below 8 is a command
code, any other single byte is a sample width: no value is both (log entry 5). -/
def decodeBytes : List Byte → Result Reject Instr
  | [] => .err .noBytes
  | [b] =>
    if b.toNat < 8 then decodeWord (.cmd (b.extractLsb' 0 3))
    else
      match decodeWord (.width8 b) with
      | .ok i => .ok i
      | .err _ => .err .neitherCommandNorWidth
  | [b0, b1] => decodeWord (.hdr16 (le16 b0 b1))
  | _ :: _ :: _ :: _ => .err .tooLong

/-- The word of an instruction, in its format (R57, R58, R59). -/
def encode : Instr → TableWord
  | .hdrpack => .cmd 0b000
  | .hdrunpk => .cmd 0b001
  | .enc => .cmd 0b010
  | .dec => .cmd 0b011
  | .smpstart => .cmd 0b100
  | .smpnext => .cmd 0b101
  | .reserved6 => .cmd 0b110
  | .reserved7 => .cmd 0b111
  | .decT0 lenf => .hdr16 (mkHeader 0b000 lenf)
  | .decT1 lenf => .hdr16 (mkHeader 0b001 lenf)
  | .decT2 lenf => .hdr16 (mkHeader 0b010 lenf)
  | .decT3 lenf => .hdr16 (mkHeader 0b011 lenf)
  | .decT4 lenf => .hdr16 (mkHeader 0b100 lenf)
  | .decT5 lenf => .hdr16 (mkHeader 0b101 lenf)
  | .decT6 lenf => .hdr16 (mkHeader 0b110 lenf)
  | .decT7 lenf => .hdr16 (mkHeader 0b111 lenf)
  | .smpstartW8 => .width8 0x08
  | .smpstartW16 => .width8 0x10
  | .smpstartW24 => .width8 0x18
  | .smpstartW32 => .width8 0x20

/-- A table word laid out as bytes: a command code in the low bits of one byte, a header low byte first. -/
def TableWord.bytes : TableWord → List Byte
  | .cmd op => [op.setWidth 8]
  | .hdr16 hdr => [loByte hdr, hiByte hdr]
  | .width8 w => [w]

/-- The bytes of an instruction. -/
def encodeBytes (i : Instr) : List Byte := (encode i).bytes

/-- What the decoder reads from an instruction whose bits are `w`, numbered as spec/opcode_table.json numbers
them, in `nbits` bits: one byte for the CMD and WIDTH8 rows, two for the HDR16 rows. -/
def decodeTableWord (nbits w : Nat) : Option Instr :=
  let bytes : List Byte :=
    if nbits = 0 then []
    else if nbits ≤ 8 then (if w < 256 then [BitVec.ofNat 8 w] else [])
    else if nbits ≤ 16 then
      (if w < 65536 then [BitVec.ofNat 8 w, BitVec.ofNat 8 (w / 256)] else [])
    else []
  match decodeBytes bytes with
  | .ok i => some i
  | .err _ => none

end Sys2Proof
end

