-- ==== Sys2Proof/Machine/Operands.lean ====
section
/-! DEFINITION. Operand assembly (30_encoding.md R60): the class of a frame type, item codes, the declared
length of a header, sample bytes and their extension to 32 bits. -/

namespace Sys2Proof.Machine

/-- `isData(t)`: is the type data-bearing (R6 P2, R7)? -/
def isData (cfg : Config) (t : FrameType) : Bool := cfg.dataTypes[t.toNat]'t.isLt

/-- `code ∈ ITEMS` (R6 P3, R54). -/
def isItem (cfg : Config) (code : Half) : Bool := cfg.items.contains code

/-- The total length a header announces, the sentinel resolved by an explicit branch: `CAP` when `lenf = 0` on
a data-bearing type, none when `lenf = 0` on a control-bearing type, else `lenf` (R52, R60). -/
def announcedLength (cfg : Config) (t : FrameType) (lenf : LenField) : Option Nat :=
  if lenf = 0 then (if isData cfg t then some cfg.cap else none) else some lenf.toNat

/-- `Σ byte_j × 2^(8j)`, the byte at the lowest index least significant (R37, R96). -/
def littleEndian : List Byte → Nat
  | [] => 0
  | b :: bs => b.toNat + 256 * littleEndian bs

/-- `extend32(raw, s)`: zero extension, or sign extension from bit `8s - 1` when the parameter asks for it
(R97). -/
def extend32 (cfg : Config) (raw stride : Nat) : Sample :=
  if cfg.signExtend then (BitVec.ofNat (8 * stride) raw).signExtend 32 else BitVec.ofNat 32 raw

/-- `int32(p)`: the signed reading of a 32-bit pattern (R9). -/
def int32 (p : Sample) : Int := p.toInt

/-- `strideOf(w)`: membership in the set of four, nothing weaker (R91). -/
def strideOf (w : Nat) : Result ErrorKind Nat :=
  if w = 8 ∨ w = 16 ∨ w = 24 ∨ w = 32 then .ok (w / 8) else .err .unsupportedSampleWidth

end Sys2Proof.Machine
end

