-- ==== Sys2Proof/Machine/Ops.lean ====
section
/-! DEFINITION. The shared operations: buffer bytes (20_memory.md R35, R41), `MemRead` and `MemWrite`
(00_scope.md R9), ending the sample sequence (10_state.md R25), and raising an error (60_exceptions.md R107),
which is NSFC's one form of taking an exception; there is no return from one (R113). -/

namespace Sys2Proof.Machine

/-- The byte written at an index, if one was. -/
def Memory.byteAt : Memory → Nat → Option Byte
  | [], _ => none
  | (a, b) :: m, i => if a = i then some b else Memory.byteAt m i

/-- Write one byte, keeping the indices strictly rising. -/
def Memory.put : Memory → Nat → Byte → Memory
  | [], i, v => [(i, v)]
  | (a, b) :: m, i, v =>
    if i < a then (i, v) :: (a, b) :: m
    else if i = a then (i, v) :: m
    else (a, b) :: Memory.put m i v

/-- Write bytes at consecutive indices from `i`. -/
def Memory.putAll (m : Memory) (i : Nat) : List Byte → Memory
  | [] => m
  | v :: vs => Memory.putAll (Memory.put m i v) (i + 1) vs

/-- The canonical form of a buffer of `capacity` bytes: indices strictly rising and within the buffer. An
unlisted index holds no known byte, so there is no listed byte to leave out (log entry 3). -/
abbrev Memory.wf (capacity : Nat) (m : Memory) : Prop :=
  m.Pairwise (fun c d => c.1 < d.1) ∧ ∀ c ∈ m, c.1 < capacity

/-- The written bytes of a buffer (R18). -/
def State.memoryOf (s : State) : Buf → Memory
  | .ibuf => s.ibuf
  | .obuf => s.obuf
  | .bbuf => s.bbuf

/-- Replace the written bytes of a buffer. -/
def State.setMemory (s : State) (b : Buf) (m : Memory) : State :=
  match b with
  | .ibuf => { s with ibuf := m }
  | .obuf => { s with obuf := m }
  | .bbuf => { s with bbuf := m }

/-- The capacity of a buffer (R18, R35). -/
def State.capacityOf (s : State) : Buf → Nat
  | .ibuf => Config.nmax
  | .obuf => s.cfg.cap
  | .bbuf => Config.nmax

/-- Byte `i` of a buffer: what was last written there, else the draw fixed at reset (R27, R41). -/
def State.byteOf (s : State) (b : Buf) (i : Nat) : Byte :=
  (Memory.byteAt (s.memoryOf b) i).getD (Config.drawByte s.epoch b i)

/-- `MemRead(BUF, i, n)` (R9). -/
def State.memRead (s : State) (b : Buf) (i : Nat) : Nat → List Byte
  | 0 => []
  | n + 1 => s.byteOf b i :: s.memRead b (i + 1) n

/-- `MemWrite(BUF, i, n, bytes)` with `n` the number of bytes (R9). -/
def State.memWrite (s : State) (b : Buf) (i : Nat) (bytes : List Byte) : State :=
  s.setMemory b (Memory.putAll (s.memoryOf b) i bytes)

/-- Write `STATUS` whole (R22). -/
def State.setStatus (s : State) (v : Byte) : State := { s with status := v }

/-- End the sample sequence: `S_ACTIVE <- 0`, `S_STRIDE <- 0`, `S_POS <- 0` (R25). -/
def State.endSequence (s : State) : State := { s with sActive := 0, sStride := 0, sPos := 0 }

/-- The cleared value of a command's result group, `STATUS` aside (R20, R107). Buffer bytes are left as they
were, and a failed SMPNEXT leaves the iterator. -/
def State.clearGroup (s : State) : ResultGroup → State
  | .hdrpack => { s with rHdr := 0 }
  | .hdrunpk => { s with rType := 0, rLen := 0 }
  | .enc => { s with olen := 0 }
  | .dec =>
    { s.endSequence with rType := 0, rLen := 0, rItem := 0, rItemV := 0, rSeq := 0, rSeqV := 0, blen := 0 }
  | .smpstart => { s.endSequence with rSample := 0 }
  | .smpnext => { s with rSample := 0 }
  | .reserved => s

/-- `raise <Error>`: the command's result group is cleared, `STATUS` holds the code, and the command completes
(R9, R107, R112). -/
def State.raise (s : State) (g : ResultGroup) (e : ErrorKind) : State :=
  (s.clearGroup g).setStatus (statusFailure e)

end Sys2Proof.Machine
end

