-- ==== Sys2Proof/Machine/Header.lean ====
section
/-! DEFINITION. The header functions `packHeader` and `unpackHeader`, and the commands HDRPACK and HDRUNPK
(40_header.md R67 to R70). -/

namespace Sys2Proof.Machine

/-- `packHeader(t, total)` (R67). -/
def packHeader (cfg : Config) (t : FrameType) (total : Nat) : Result ErrorKind Half :=
  if total < 2 ∨ cfg.cap < total then .err .framing
  else if total = cfg.cap ∧ isData cfg t then .ok (mkHeader t 0)
  else if total ≤ Config.lenfMax then .ok (mkHeader t (BitVec.ofNat 13 total))
  else .err .framing

/-- The declared length of a header given by its fields: the announced length, within the bounds (R68). -/
def declaredLength (cfg : Config) (t : FrameType) (lenf : LenField) : Result ErrorKind Nat :=
  match announcedLength cfg t lenf with
  | none => .err .framing
  | some declared => if declared < 2 ∨ cfg.cap < declared then .err .framing else .ok declared

/-- `unpackHeader(hdr)` (R68). -/
def unpackHeader (cfg : Config) (hdr : Half) : Result ErrorKind (FrameType × Nat) :=
  match declaredLength cfg (headerType hdr) (headerLenf hdr) with
  | .ok declared => .ok (headerType hdr, declared)
  | .err e => .err e

/-- HDRPACK (R69). -/
def execHdrpack (s : State) : Host.Outcome State Fault Refusal :=
  match packHeader s.cfg s.aType s.aLen.toNat with
  | .ok hdr => .next ({ s with rHdr := hdr }.setStatus statusSuccess)
  | .err e => .next (s.raise .hdrpack e)

/-- HDRUNPK (R70). -/
def execHdrunpk (s : State) : Host.Outcome State Fault Refusal :=
  match unpackHeader s.cfg s.aHdr with
  | .ok (t, declared) =>
    .next ({ s with rType := t, rLen := BitVec.ofNat 16 declared }.setStatus statusSuccess)
  | .err e => .next (s.raise .hdrunpk e)

end Sys2Proof.Machine
end

