-- ==== Sys2Proof/Machine/Frame.lean ====
section
/-! DEFINITION. The frame functions `encodeFrame` and `decodeFrame`, the commands ENC and DEC, and DEC as it
dispatches on each of the eight frame types (41_frame.md R75, R77, R79, R81 to R84). -/

namespace Sys2Proof.Machine

/-- What a frame decodes to (R79): exactly one of `item` and `seq` is present. -/
structure DecodedFrame where
  type : FrameType
  declared : Nat
  item : Option Half
  seq : Option Half
  body : List Byte
deriving DecidableEq, Repr

/-- `encodeFrame(t, code, payload)` (R75). -/
def encodeFrame (cfg : Config) (t : FrameType) (code : Half) (payload : List Byte) :
    Result ErrorKind (List Byte) :=
  match packHeader cfg t (4 + payload.length) with
  | .ok hdr => .ok ([loByte hdr, hiByte hdr, loByte code, hiByte code] ++ payload)
  | .err e => .err e

/-- Step (7) of `decodeFrame`: the payload variant the type selects (R82, R83). -/
def decodeVariant (cfg : Config) (t : FrameType) (declared : Nat) (code : Half) (body : List Byte) :
    Result ErrorKind DecodedFrame :=
  if isData cfg t then .ok ⟨t, declared, none, some code, body⟩
  else if isItem cfg code then .ok ⟨t, declared, some code, none, body⟩
  else .err .unknownItemCode

/-- Steps (3) to (7) of `decodeFrame` for a header with fields `t` and `lenf`: `n` is the actual byte count and
`rest` the bytes after the header (R79, R80). -/
def decodeHeaded (cfg : Config) (t : FrameType) (lenf : LenField) (n : Nat) (rest : List Byte) :
    Result ErrorKind DecodedFrame :=
  match declaredLength cfg t lenf with
  | .err e => .err e
  | .ok declared =>
    if declared ≠ n then .err .framing
    else
      match rest with
      | c0 :: c1 :: body => decodeVariant cfg t declared (le16 c0 c1) body
      | _ => .err .framing

/-- `decodeFrame(msg)` (R79); fewer than two bytes have no header to read (R84). -/
def decodeFrame (cfg : Config) (msg : List Byte) : Result ErrorKind DecodedFrame :=
  match msg with
  | b0 :: b1 :: rest =>
    decodeHeaded cfg (headerType (le16 b0 b1)) (headerLenf (le16 b0 b1)) (rest.length + 2) rest
  | _ => .err .framing

/-- The value register of an optional result: 0 stands beside a valid bit of 0 (R81). -/
def optionValue (o : Option Half) : Half := o.getD 0

/-- The valid bit of an optional result (R17). -/
def optionValid (o : Option Half) : BitVec 1 := BitVec.ofBool o.isSome

/-- The writes of a DEC with its result: the sequence ends in any case, the success writes or the failure
writes follow (R81). -/
def State.finishDec (s : State) : Result ErrorKind DecodedFrame → State
  | .ok f =>
    ({ s.endSequence with
        rType := f.type
        rLen := BitVec.ofNat 16 f.declared
        rItem := optionValue f.item
        rItemV := optionValid f.item
        rSeq := optionValue f.seq
        rSeqV := optionValid f.seq
        blen := BitVec.ofNat 16 f.body.length }.memWrite .bbuf 0 f.body).setStatus statusSuccess
  | .err e => s.raise .dec e

/-- DEC of the frame in IBUF, its header already taken from bytes 0 and 1 as type `t` and length field `lenf`
(R66: one row per frame type as DEC dispatches it; log entry 6). -/
def State.decHeaded (s : State) (t : FrameType) (lenf : LenField) : State :=
  s.finishDec (decodeHeaded s.cfg t lenf s.ilen.toNat (s.memRead .ibuf 2 (s.ilen.toNat - 2)))

/-- ENC (R77). -/
def execEnc (s : State) : Host.Outcome State Fault Refusal :=
  match encodeFrame s.cfg s.aType s.aCode (s.memRead .ibuf 0 s.ilen.toNat) with
  | .ok bytes =>
    .next (({ s with olen := BitVec.ofNat 16 bytes.length }.memWrite .obuf 0 bytes).setStatus statusSuccess)
  | .err e => .next (s.raise .enc e)

/-- DEC (R81). -/
def execDec (s : State) : Host.Outcome State Fault Refusal :=
  .next (s.finishDec (decodeFrame s.cfg (s.memRead .ibuf 0 s.ilen.toNat)))

/-- DEC of a frame of type T0 (R82, R83). -/
def execDecT0 (lenf : LenField) (s : State) : Host.Outcome State Fault Refusal := .next (s.decHeaded 0 lenf)

/-- DEC of a frame of type T1 (R82, R83). -/
def execDecT1 (lenf : LenField) (s : State) : Host.Outcome State Fault Refusal := .next (s.decHeaded 1 lenf)

/-- DEC of a frame of type T2 (R82, R83). -/
def execDecT2 (lenf : LenField) (s : State) : Host.Outcome State Fault Refusal := .next (s.decHeaded 2 lenf)

/-- DEC of a frame of type T3 (R82, R83). -/
def execDecT3 (lenf : LenField) (s : State) : Host.Outcome State Fault Refusal := .next (s.decHeaded 3 lenf)

/-- DEC of a frame of type T4 (R82, R83). -/
def execDecT4 (lenf : LenField) (s : State) : Host.Outcome State Fault Refusal := .next (s.decHeaded 4 lenf)

/-- DEC of a frame of type T5 (R82, R83). -/
def execDecT5 (lenf : LenField) (s : State) : Host.Outcome State Fault Refusal := .next (s.decHeaded 5 lenf)

/-- DEC of a frame of type T6 (R82, R83). -/
def execDecT6 (lenf : LenField) (s : State) : Host.Outcome State Fault Refusal := .next (s.decHeaded 6 lenf)

/-- DEC of a frame of type T7 (R82, R83). -/
def execDecT7 (lenf : LenField) (s : State) : Host.Outcome State Fault Refusal := .next (s.decHeaded 7 lenf)

end Sys2Proof.Machine
end

