-- ==== Sys2Proof/Machine/Reserved.lean ====
section
/-! DEFINITION. The reserved command codes (60_exceptions.md R109). -/

namespace Sys2Proof.Machine

/-- Command code 6: BadCommand, only `STATUS` is written (R109). -/
def execReserved6 (s : State) : Host.Outcome State Fault Refusal := .next (s.raise .reserved .badCommand)

/-- Command code 7: BadCommand, only `STATUS` is written (R109). -/
def execReserved7 (s : State) : Host.Outcome State Fault Refusal := .next (s.raise .reserved .badCommand)

end Sys2Proof.Machine
end

