-- ==== Sys2Proof/Machine/Samples.lean ====
section
/-! DEFINITION. The sample decoder: `getSamples`, and the commands SMPSTART and SMPNEXT with SMPSTART at each
legal width (42_samples.md R91 to R97). -/

namespace Sys2Proof.Machine

/-- The 32-bit pattern of the sample whose bytes, in index order, are `bytes` (R96, R97). -/
def samplePattern (cfg : Config) (bytes : List Byte) : Sample :=
  extend32 cfg (littleEndian bytes) bytes.length

/-- `sample(body, i, s)` (R93). -/
def sampleAt (cfg : Config) (body : List Byte) (i stride : Nat) : Int :=
  int32 (samplePattern cfg ((body.drop i).take stride))

/-- `getSamples(w, body)` (R93). -/
def getSamples (cfg : Config) (w : Nat) (body : List Byte) : Result ErrorKind (List Int) :=
  match strideOf w with
  | .ok s => .ok ((List.range (body.length / s)).map fun k => sampleAt cfg body (k * s) s)
  | .err e => .err e

/-- Start a sample sequence at width `w`, or refuse the width (R94). -/
def State.startSequence (s : State) (w : Nat) : State :=
  match strideOf w with
  | .ok stride =>
    { s with sActive := 1, sStride := BitVec.ofNat 3 stride, sPos := 0, rSample := 0 }.setStatus statusSuccess
  | .err e => s.raise .smpstart e

/-- SMPSTART (R94). -/
def execSmpstart (s : State) : Host.Outcome State Fault Refusal := .next (s.startSequence s.aWidth.toNat)

/-- SMPNEXT (R95). -/
def execSmpnext (s : State) : Host.Outcome State Fault Refusal :=
  if s.sActive = 0 then .next (s.raise .smpnext .badCommand)
  else if s.sPos.toNat + s.sStride.toNat ≤ s.blen.toNat then
    .next ({ s with
        rSample := samplePattern s.cfg (s.memRead .bbuf s.sPos.toNat s.sStride.toNat)
        sPos := BitVec.ofNat 16 (s.sPos.toNat + s.sStride.toNat) }.setStatus statusSuccess)
  else .next ({ s with rSample := 0 }.setStatus statusEnd)

/-- SMPSTART.W8: `WR A_WIDTH, 8 ; SMPSTART` (R65; log entry 7). -/
def execSmpstartW8 (s : State) : Host.Outcome State Fault Refusal :=
  .next ({ s with aWidth := 8 }.startSequence 8)

/-- SMPSTART.W16: `WR A_WIDTH, 16 ; SMPSTART` (R65). -/
def execSmpstartW16 (s : State) : Host.Outcome State Fault Refusal :=
  .next ({ s with aWidth := 16 }.startSequence 16)

/-- SMPSTART.W24: `WR A_WIDTH, 24 ; SMPSTART` (R65). -/
def execSmpstartW24 (s : State) : Host.Outcome State Fault Refusal :=
  .next ({ s with aWidth := 24 }.startSequence 24)

/-- SMPSTART.W32: `WR A_WIDTH, 32 ; SMPSTART` (R65). -/
def execSmpstartW32 (s : State) : Host.Outcome State Fault Refusal :=
  .next ({ s with aWidth := 32 }.startSequence 32)

end Sys2Proof.Machine
end

