-- ==== Sys2Proof/Machine/Dispatch.lean ====
section
/-! DEFINITION. One arm per row of the opcode table. -/

namespace Sys2Proof.Machine

def exec (i : Instr) (s : State) : Host.Outcome State Fault Refusal :=
  match i with
  | .hdrpack => Sys2Proof.Machine.execHdrpack s
  | .hdrunpk => Sys2Proof.Machine.execHdrunpk s
  | .enc => Sys2Proof.Machine.execEnc s
  | .dec => Sys2Proof.Machine.execDec s
  | .smpstart => Sys2Proof.Machine.execSmpstart s
  | .smpnext => Sys2Proof.Machine.execSmpnext s
  | .reserved6 => Sys2Proof.Machine.execReserved6 s
  | .reserved7 => Sys2Proof.Machine.execReserved7 s
  | .decT0 lenf => Sys2Proof.Machine.execDecT0 lenf s
  | .decT1 lenf => Sys2Proof.Machine.execDecT1 lenf s
  | .decT2 lenf => Sys2Proof.Machine.execDecT2 lenf s
  | .decT3 lenf => Sys2Proof.Machine.execDecT3 lenf s
  | .decT4 lenf => Sys2Proof.Machine.execDecT4 lenf s
  | .decT5 lenf => Sys2Proof.Machine.execDecT5 lenf s
  | .decT6 lenf => Sys2Proof.Machine.execDecT6 lenf s
  | .decT7 lenf => Sys2Proof.Machine.execDecT7 lenf s
  | .smpstartW8 => Sys2Proof.Machine.execSmpstartW8 s
  | .smpstartW16 => Sys2Proof.Machine.execSmpstartW16 s
  | .smpstartW24 => Sys2Proof.Machine.execSmpstartW24 s
  | .smpstartW32 => Sys2Proof.Machine.execSmpstartW32 s

end Sys2Proof.Machine
end

