-- ==== Sys2Proof/Machine/HostPort.lean ====
section
/-! DEFINITION. What the host does to NSFC other than issuing a command (10_state.md R13, R16 to R18, R25;
70_reset_and_hazards.md R119), the row of the opcode table that an issued code runs, and the lines and
pseudo-instructions of 30_encoding.md R64 and R65 as lists of host actions. -/

namespace Sys2Proof.Machine

/-- What the host reads from a register (R16 to R18, R22). -/
def State.readReg (s : State) : (r : Reg) → BitVec r.width
  | .aType => s.aType
  | .aLen => s.aLen
  | .aHdr => s.aHdr
  | .aCode => s.aCode
  | .aWidth => s.aWidth
  | .rHdr => s.rHdr
  | .rType => s.rType
  | .rLen => s.rLen
  | .rItem => s.rItem
  | .rItemV => s.rItemV
  | .rSeq => s.rSeq
  | .rSeqV => s.rSeqV
  | .rSample => s.rSample
  | .ilen => s.ilen
  | .olen => s.olen
  | .blen => s.blen
  | .status => s.status

/-- A host write of a register. Operand registers and the length registers ILEN and BLEN take the value, and a
write of BLEN ends the sample sequence (R16, R18, R25). A write of a result register, OLEN or STATUS is
ignored (R17, R18, R22; log entry 8). -/
def State.hostWrite (s : State) : (r : Reg) → BitVec r.width → State
  | .aType, v => { s with aType := v }
  | .aLen, v => { s with aLen := v }
  | .aHdr, v => { s with aHdr := v }
  | .aCode, v => { s with aCode := v }
  | .aWidth, v => { s with aWidth := v }
  | .ilen, v => { s with ilen := v }
  | .blen, v => { s.endSequence with blen := v }
  | .rHdr, _ | .rType, _ | .rLen, _ | .rItem, _ | .rItemV, _ | .rSeq, _ | .rSeqV, _ | .rSample, _
  | .olen, _ | .status, _ => s

/-- A host write of one buffer byte. A write of BBUF ends the sample sequence (R25); the host cannot write
OBUF, so such a write is ignored (R18; log entry 8). -/
def State.hostWriteByte (s : State) (b : Buf) (i : Nat) (v : Byte) : State :=
  match b with
  | .ibuf => s.memWrite .ibuf i [v]
  | .obuf => s
  | .bbuf => s.endSequence.memWrite .bbuf i [v]

/-- The one external reset (R119): the values of R26, a new draw of every buffer byte (R27), the parameters as
they were (R121). -/
def State.hostReset (s : State) : State := State.resetOf s.cfg (s.epoch + 1) s.pending

/-- The row of the opcode table that runs when the host issues `op` (R24, R58, R66). DEC dispatches on the
header at bytes 0 and 1 of IBUF when there is one, SMPSTART on a legal width in `A_WIDTH`; otherwise the
command's own row runs. -/
def State.issuedRow (s : State) (op : BitVec 3) : Instr :=
  match decodeCmd op with
  | .dec =>
    if s.ilen.toNat < 2 then .dec else decodeHeader (le16 (s.byteOf .ibuf 0) (s.byteOf .ibuf 1))
  | .smpstart =>
    match decodeWidth s.aWidth with
    | .ok i => i
    | .err _ => .smpstart
  | i => i

/-- The host actions that store `bytes` from index `i` of a buffer. -/
def storeActions (b : Buf) (i : Nat) : List Byte → List HostAction
  | [] => []
  | v :: vs => .writeByte b (Fin.ofNat 65535 i) v :: storeActions b (i + 1) vs

/-- `LD IBUF, bytes` (R64); meant for at most NMAX bytes, which is all IBUF holds. -/
def ldIbuf (bytes : List Byte) : List HostAction :=
  storeActions .ibuf 0 bytes ++ [.write .ilen (BitVec.ofNat 16 bytes.length)]

/-- `LD BBUF, bytes` (R64). -/
def ldBbuf (bytes : List Byte) : List HostAction :=
  storeActions .bbuf 0 bytes ++ [.write .blen (BitVec.ofNat 16 bytes.length)]

/-- `CP IBUF, OBUF` (R64): the host copies what it reads from OBUF in state `s`. -/
def cpIbufObuf (s : State) : List HostAction := ldIbuf (s.memRead .obuf 0 s.olen.toNat)

/-- `HDRPACK t, n` (R65). -/
def hdrpackLine (t : FrameType) (n : Half) : List HostAction := [.write .aType t, .write .aLen n, .issue 0]

/-- `HDRUNPK h` (R65). -/
def hdrunpkLine (h : Half) : List HostAction := [.write .aHdr h, .issue 1]

/-- `ENC.CTL t, item, bytes` and `ENC.DAT t, seq, bytes`: one command, the type selects the variant (R65). -/
def encLine (t : FrameType) (code : Half) (bytes : List Byte) : List HostAction :=
  ldIbuf bytes ++ [.write .aType t, .write .aCode code, .issue 2]

/-- `DEC bytes` (R65). -/
def decLine (bytes : List Byte) : List HostAction := ldIbuf bytes ++ [.issue 3]

/-- The lines of `GETSAMPLES w, bytes` (R65) with SMPNEXT issued `k` times, whatever they return. The loop that stops
at the end and collects the samples is `runGetSamples` (HostLoop.lean). -/
def getSamplesLine (w : Byte) (bytes : List Byte) (k : Nat) : List HostAction :=
  ldBbuf bytes ++ [.write .aWidth w, .issue 4] ++ List.replicate k (.issue 5)

/-- `SMPSTART.W8` and its like (R65). -/
def smpstartLine (w : Byte) : List HostAction := [.write .aWidth w, .issue 4]

end Sys2Proof.Machine
end

