-- ==== Sys2Proof/Machine/Step.lean ====
section
/-! DEFINITION. One step: the host's next action, whole (20_memory.md R43, R44). NSFC has no program counter and
fetches no program (10_state.md R21); what selects the next instruction is the command code the host issues. -/

namespace Sys2Proof.Machine

/-- Perform one action of the host. Issuing a code runs its row of the opcode table; every other action is a
register or buffer access or a reset. -/
def perform (s : State) : HostAction → Host.Outcome State Fault Refusal
  | .issue op => exec (s.issuedRow op) s
  | .write r v => .next (s.hostWrite r v)
  | .writeByte b i v => .next (s.hostWriteByte b i.val v)
  | .read _ => .next s
  | .readByte _ _ => .next s
  | .reset => .next s.hostReset

/-- One step takes the first pending action and performs it. With none pending nothing happens: NSFC never acts
on its own (R13). -/
def step (s : State) : Host.Outcome State Fault Refusal :=
  match s.pending with
  | [] => .next s
  | a :: rest => perform { s with pending := rest } a

/-- `s` with the instruction whose bits are `w` where the next step takes it from (log entry 9). A CMD word is a
command code about to be issued. An HDR16 word is a frame header: it stands at bytes 0 and 1 of IBUF, `ILEN`
counts at least these two bytes, and DEC is about to be issued. A WIDTH8 word is the operand `A_WIDTH`, with
SMPSTART about to be issued. -/
def State.withFetchWord (s : State) (nbits w : Nat) : State :=
  if 8 < nbits then
    { s.memWrite .ibuf 0 [BitVec.ofNat 8 w, BitVec.ofNat 8 (w / 256)] with
      ilen := if s.ilen.toNat < 2 then 2 else s.ilen
      pending := .issue 3 :: s.pending }
  else if w < 8 then { s with pending := .issue (BitVec.ofNat 3 w) :: s.pending }
  else { s with aWidth := BitVec.ofNat 8 w, pending := .issue 4 :: s.pending }

end Sys2Proof.Machine
end

