-- ==== Sys2Proof/Machine/HostLoop.lean ====
section
/-! DEFINITION. Runs of the host: a list of its actions, and the loop of the pseudo-instruction GETSAMPLES, in which
what the host reads decides whether it goes on (30_encoding.md R64, R65). -/

namespace Sys2Proof.Machine

/-- The host performs `actions` one after the other, from `s` with nothing else pending. -/
def runScript (actions : List HostAction) (s : State) : Host.Outcome State Fault Refusal :=
  Sys2Proof.core.run actions.length { s with pending := actions }

/-- Does the host go on after this SMPNEXT? It has read `STATUS`: `OK = 1` and `EOS = 0` (R65). -/
def State.sampleProduced (s : State) : Bool :=
  statusOK (s.readReg .status) && !statusEOS (s.readReg .status)

/-- Put a collected element before what the rest of the loop collects. -/
def collectBefore (e : Int) : Host.Outcome (List Int × State) Fault Refusal →
    Host.Outcome (List Int × State) Fault Refusal
  | .next (es, t) => .next (e :: es, t)
  | .fault r => .fault r
  | .refused r => .refused r

/-- SMPNEXT repeated until `STATUS.EOS = 1` or `STATUS.OK = 0`, with `int32(R_SAMPLE)` collected after each one
that returned `OK = 1, EOS = 0` (R65). At most `budget` times, and with the test after each SMPNEXT, not before the
first (log entry 14). -/
def collectSamples : Nat → State → Host.Outcome (List Int × State) Fault Refusal
  | 0, s => .next ([], s)
  | budget + 1, s =>
    match step { s with pending := [.issue 5] } with
    | .next t =>
      if t.sampleProduced then collectBefore (int32 (t.readReg .rSample)) (collectSamples budget t)
      else .next ([], t)
    | .fault r => .fault r
    | .refused r => .refused r

/-- `GETSAMPLES w, bytes` (R65): LD BBUF, WR A_WIDTH, SMPSTART, and the loop. It answers the collected elements and
the state at its end. One SMPNEXT more than the body has bytes is always enough (log entry 14). -/
def runGetSamples (w : Byte) (bytes : List Byte) (s : State) : Host.Outcome (List Int × State) Fault Refusal :=
  match runScript (getSamplesLine w bytes 0) s with
  | .next t => collectSamples (bytes.length + 1) t
  | .fault r => .fault r
  | .refused r => .refused r

end Sys2Proof.Machine
end

