-- ==== Sys2Proof/WellFormed.lean ====
section
/-! DEFINITION. Well-formedness of the terms the model is given. An instruction is well formed by its type
(Syntax.lean); what can be ill formed is a configuration. -/

namespace Sys2Proof

/-- The lower bound that R6 puts on CAP. -/
abbrev Config.capAtLeastTwo (c : Config) : Prop := 2 ≤ c.cap

/-- The upper bound that R6 puts on CAP. -/
abbrev Config.capFitsHalf (c : Config) : Prop := c.cap ≤ 65535

/-- ITEMS is a set (R6): its list names no code twice. -/
abbrev Config.itemsDistinct (c : Config) : Prop := c.items.Nodup

/-- A configuration that meets the constraints of R6. -/
abbrev Config.wf (c : Config) : Prop := c.capAtLeastTwo ∧ c.capFitsHalf ∧ c.itemsDistinct

end Sys2Proof
end

