-- ==== Sys2Proof/Safety.lean ====
section
/-! DEFINITION. What the statements are said in: the legal values of STATUS, the invariant of the state, what a
command reads and writes (10_state.md R20). -/

namespace Sys2Proof.Machine

/-- The legal values of `STATUS` (R22). -/
def legalStatus : List Byte := [0x01, 0x03, 0x04, 0x08, 0x0C, 0x1C, 0x00]

/-- The invariant of the state. -/
structure StateInv (s : State) : Prop where
  /-- The parameters meet the constraints of R6. -/
  cfgWf : s.cfg.wf
  /-- R22: the legal values of `STATUS`. -/
  statusLegal : s.status ∈ legalStatus
  /-- R17: `R_LEN` is 2..CAP, or 0. -/
  lenBounds : s.rLen = 0 ∨ (2 ≤ s.rLen.toNat ∧ s.rLen.toNat ≤ s.cfg.cap)
  /-- R23: at most one of the two valid bits is 1. -/
  oneValid : ¬ (s.rItemV = 1 ∧ s.rSeqV = 1)
  /-- R54, R81: a valid item code is a recognised one, and an invalid one reads 0. -/
  itemRecognised : (s.rItemV = 1 → isItem s.cfg s.rItem = true) ∧ (s.rItemV = 0 → s.rItem = 0)
  /-- R81: an invalid sequence number reads 0. -/
  seqCleared : s.rSeqV = 0 → s.rSeq = 0
  /-- R18, R76: `OLEN` is 0 or the length of a whole frame, at most CAP. -/
  olenBounds : s.olen = 0 ∨ (4 ≤ s.olen.toNat ∧ s.olen.toNat ≤ s.cfg.cap)
  /-- R19: with an active sequence the stride is 1..4, the position a multiple of it within the body. -/
  sequenceActive : s.sActive = 1 →
    1 ≤ s.sStride.toNat ∧ s.sStride.toNat ≤ 4 ∧ s.sStride.toNat ∣ s.sPos.toNat ∧ s.sPos.toNat ≤ s.blen.toNat
  /-- R19, R25: with no active sequence stride and position are 0. -/
  sequenceInactive : s.sActive = 0 → s.sStride = 0 ∧ s.sPos = 0
  /-- R18, R35: each buffer keeps its canonical form and its capacity. -/
  ibufWf : Memory.wf Config.nmax s.ibuf
  obufWf : Memory.wf s.cfg.cap s.obuf
  bbufWf : Memory.wf Config.nmax s.bbuf

/-- Every register, length and iterator field at its reset value (R26). Of the buffer bytes R26 says only that they
are unspecified. -/
def resetValues (t : State) : Prop :=
  t.aType = 0 ∧ t.aLen = 0 ∧ t.aHdr = 0 ∧ t.aCode = 0 ∧ t.aWidth = 0 ∧
  t.rHdr = 0 ∧ t.rType = 0 ∧ t.rLen = 0 ∧ t.rItem = 0 ∧ t.rSeq = 0 ∧ t.rSample = 0 ∧
  t.rItemV = 0 ∧ t.rSeqV = 0 ∧ t.status = 0x00 ∧
  t.ilen = 0 ∧ t.olen = 0 ∧ t.blen = 0 ∧
  t.sActive = 0 ∧ t.sStride = 0 ∧ t.sPos = 0

/-- The three ways a header is illegal (R61; F4 and F5 of R105). -/
def illegalHeader (cfg : Config) (hdr : Half) : Prop :=
  (headerLenf hdr = 0 ∧ isData cfg (headerType hdr) = false) ∨ headerLenf hdr = 1 ∨
    (headerLenf hdr ≠ 0 ∧ cfg.cap < (headerLenf hdr).toNat)

/-- The two states agree on the bytes of a buffer from index `i` up to, not including, `j`. -/
def sameBytes (s t : State) (b : Buf) (i j : Nat) : Prop :=
  ∀ k, i ≤ k → k < j → s.byteOf b k = t.byteOf b k

/-- The two states agree on everything R20 lists as read by the instruction, and on the parameters. -/
def sameInputs (i : Instr) (s t : State) : Prop :=
  s.cfg = t.cfg ∧
  match i with
  | .hdrpack => s.aType = t.aType ∧ s.aLen = t.aLen
  | .hdrunpk => s.aHdr = t.aHdr
  | .enc => s.aType = t.aType ∧ s.aCode = t.aCode ∧ s.ilen = t.ilen ∧ sameBytes s t .ibuf 0 s.ilen.toNat
  | .dec => s.ilen = t.ilen ∧ sameBytes s t .ibuf 0 s.ilen.toNat
  | .decT0 _ | .decT1 _ | .decT2 _ | .decT3 _ | .decT4 _ | .decT5 _ | .decT6 _ | .decT7 _ =>
    s.ilen = t.ilen ∧ sameBytes s t .ibuf 2 s.ilen.toNat
  | .smpstart => s.aWidth = t.aWidth
  | .smpstartW8 | .smpstartW16 | .smpstartW24 | .smpstartW32 => True
  | .smpnext =>
    s.sActive = t.sActive ∧ s.sStride = t.sStride ∧ s.sPos = t.sPos ∧ s.blen = t.blen ∧
    (s.sPos.toNat + s.sStride.toNat ≤ s.blen.toNat →
      sameBytes s t .bbuf s.sPos.toNat (s.sPos.toNat + s.sStride.toNat))
  | .reserved6 | .reserved7 => True

/-- The two states agree on everything R20 lists as written by the instruction. -/
def sameOutputs (i : Instr) (s t : State) : Prop :=
  s.status = t.status ∧
  match i with
  | .hdrpack => s.rHdr = t.rHdr
  | .hdrunpk => s.rType = t.rType ∧ s.rLen = t.rLen
  | .enc => s.olen = t.olen ∧ sameBytes s t .obuf 0 s.olen.toNat
  | .dec | .decT0 _ | .decT1 _ | .decT2 _ | .decT3 _ | .decT4 _ | .decT5 _ | .decT6 _ | .decT7 _ =>
    s.rType = t.rType ∧ s.rLen = t.rLen ∧ s.rItem = t.rItem ∧ s.rItemV = t.rItemV ∧ s.rSeq = t.rSeq ∧
    s.rSeqV = t.rSeqV ∧ s.blen = t.blen ∧ s.sActive = t.sActive ∧ s.sStride = t.sStride ∧ s.sPos = t.sPos ∧
    sameBytes s t .bbuf 0 s.blen.toNat
  | .smpstart | .smpstartW8 | .smpstartW16 | .smpstartW24 | .smpstartW32 =>
    s.sActive = t.sActive ∧ s.sStride = t.sStride ∧ s.sPos = t.sPos ∧ s.rSample = t.rSample
  | .smpnext => s.rSample = t.rSample ∧ s.sPos = t.sPos
  | .reserved6 | .reserved7 => True

/-- The registers the host writes and NSFC only reads, with IBUF and the parameters (R16, R18): what no
command changes. -/
def sameOperands (s t : State) : Prop :=
  t.cfg = s.cfg ∧ t.aType = s.aType ∧ t.aLen = s.aLen ∧ t.aHdr = s.aHdr ∧ t.aCode = s.aCode ∧
  t.aWidth = s.aWidth ∧ t.ilen = s.ilen ∧ t.ibuf = s.ibuf

end Sys2Proof.Machine
end

