-- ==== Sys2Proof/Certificates/Slice0/Obligations.lean ====
section
/-! DEFINITION. The statements about NSFC that the provers settle. Each docstring names the rules of the
spec it rests on. -/

open Sys2Proof Sys2Proof.Machine

/-! ### Encoding -/

/-- DECODE AND ENCODE AGREE, for all twenty rows and every length field: the bytes of an instruction decode to it,
and so does its word in its format (R57, R58, R59, R66; the layout in bytes is the model's, log entry 5). -/
def Obligations.DecodeOfEncodeIsTheInstruction : Prop :=
  ∀ i : Instr, decodeWord (encode i) = .ok i ∧ decodeBytes (encodeBytes i) = .ok i

/-- R66: within one format no two rows match the same value. Every word that decodes at all is the word of the
instruction it decodes to, in the same format, so two instructions never share a word. That the bytes of two
instructions differ ACROSS formats too (third clause) is the model's byte layout and no rule of the spec
(log entry 5, DESIGN CHOICE). -/
def Obligations.NoTwoRowsShareAWord : Prop :=
  (∀ w i, decodeWord w = .ok i → encode i = w) ∧
  (∀ i j : Instr, encode i = encode j → i = j) ∧
  (∀ i j : Instr, encodeBytes i = encodeBytes j → i = j)

/-- A few words written out from the encodings of R50, R51, R57, R58 and R59. That one byte below 8 is read as a
command code and any other single byte as a width is the model's choice (log entry 5, DESIGN CHOICE). -/
def Obligations.WrittenOutWordsDecode : Prop :=
  decodeBytes [0b00000000] = .ok .hdrpack ∧
  decodeBytes [0b00000001] = .ok .hdrunpk ∧
  decodeBytes [0b00000010] = .ok .enc ∧
  decodeBytes [0b00000011] = .ok .dec ∧
  decodeBytes [0b00000100] = .ok .smpstart ∧
  decodeBytes [0b00000101] = .ok .smpnext ∧
  decodeBytes [0b00000110] = .ok .reserved6 ∧
  decodeBytes [0b00000111] = .ok .reserved7 ∧
  decodeBytes [0b00001000, 0b10000000] = .ok (.decT4 8) ∧
  decodeBytes [0b11111111, 0b01111111] = .ok (.decT3 8191) ∧
  decodeBytes [0b00011000] = .ok .smpstartW24

/-- R59, R62: the width port accepts the four legal values and no other. -/
def Obligations.FourOf256WidthsHaveARow : Prop :=
  ∀ w : Byte,
    (w ∈ ([0x08, 0x10, 0x18, 0x20] : List Byte) →
      ∃ i, decodeWidth w = .ok i ∧ i.sampleWidth = some w) ∧
    (w ∉ ([0x08, 0x10, 0x18, 0x20] : List Byte) → decodeWidth w = .err .unsupportedWidth)

/-! ### The step -/

/-- A STEP RUNS THE DECODED INSTRUCTION. A step whose next pending action is the issue of `op` is `exec` of the
row that `op` selects, at the state with that action taken off; and the row is: the row of the code itself
for every code but DEC and SMPSTART; for DEC the row of the frame header at bytes 0 and 1 of IBUF, or DEC's own
row when ILEN is below 2; for SMPSTART the row of the width in `A_WIDTH`, or SMPSTART's own row when it is no
legal width (R24, R43, R58, R66; the choice of row is the model's, log entry 6, and so is the one-byte form of a
command code that the second clause gives the decoder, log entry 5). -/
def Obligations.StepRunsTheIssuedRow : Prop :=
  ∀ (s : State) (op : BitVec 3) (rest : List HostAction), s.pending = .issue op :: rest →
    step s = exec (s.issuedRow op) { s with pending := rest } ∧
    (op ≠ 3 → op ≠ 4 → decodeBytes [op.setWidth 8] = .ok (s.issuedRow op)) ∧
    (op = 3 → 2 ≤ s.ilen.toNat →
      decodeBytes [s.byteOf .ibuf 0, s.byteOf .ibuf 1] = .ok (s.issuedRow op)) ∧
    (op = 3 → s.ilen.toNat < 2 → s.issuedRow op = .dec) ∧
    (op = 4 → ∀ i, decodeWord (.width8 s.aWidth) = .ok i → s.issuedRow op = i) ∧
    (op = 4 → ∀ e, decodeWord (.width8 s.aWidth) = .err e → s.issuedRow op = .smpstart)

/-- The row that a code selects does what the command itself does: DEC.T0 to DEC.T7 on the header in IBUF are
DEC, SMPSTART.W8 to SMPSTART.W32 on the width in `A_WIDTH` are SMPSTART (R65, R66, R81, R94). -/
def Obligations.IssuedRowAgreesWithTheCommand : Prop :=
  ∀ (s : State) (op : BitVec 3), exec (s.issuedRow op) s = exec (decodeCmd op) s

/-- A step whose next pending action is a host access: operand registers and ILEN take what is written, a write of
BLEN or of a BBUF byte also ends the sample sequence, a write of a result register is ignored, a read changes
nothing (R13, R16, R17, R18, R25, R42). The model's own: that a write of OLEN, of STATUS or of an OBUF byte, which
the spec says the host cannot make, is ignored (log entry 8, DEDUCED); that an OBUF byte from CAP on can be read at
all (log entry 13, DESIGN CHOICE); and that a step with nothing pending changes nothing (log entry 10, DESIGN
CHOICE). What a read returns is HostReadsReturnTheRegister. -/
def Obligations.StepPerformsHostAccesses : Prop :=
  ∀ (s : State) (rest : List HostAction),
    (∀ v, s.pending = .write .aType v :: rest → step s = .next { s with pending := rest, aType := v }) ∧
    (∀ v, s.pending = .write .aLen v :: rest → step s = .next { s with pending := rest, aLen := v }) ∧
    (∀ v, s.pending = .write .aHdr v :: rest → step s = .next { s with pending := rest, aHdr := v }) ∧
    (∀ v, s.pending = .write .aCode v :: rest → step s = .next { s with pending := rest, aCode := v }) ∧
    (∀ v, s.pending = .write .aWidth v :: rest → step s = .next { s with pending := rest, aWidth := v }) ∧
    (∀ v, s.pending = .write .ilen v :: rest → step s = .next { s with pending := rest, ilen := v }) ∧
    (∀ v, s.pending = .write .blen v :: rest →
      step s = .next { s with pending := rest, blen := v, sActive := 0, sStride := 0, sPos := 0 }) ∧
    (∀ r v, r ∈ ([.rHdr, .rType, .rLen, .rItem, .rItemV, .rSeq, .rSeqV, .rSample, .olen, .status] : List Reg) →
      s.pending = .write r v :: rest → step s = .next { s with pending := rest }) ∧
    (∀ r, s.pending = .read r :: rest → step s = .next { s with pending := rest }) ∧
    (∀ b k, s.pending = .readByte b k :: rest → step s = .next { s with pending := rest }) ∧
    (∀ k v, s.pending = .writeByte .obuf k v :: rest → step s = .next { s with pending := rest }) ∧
    (∀ k v, s.pending = .writeByte .ibuf k v :: rest →
      ∃ t, step s = .next t ∧ t = { s with pending := rest, ibuf := t.ibuf } ∧
        ∀ j, t.byteOf .ibuf j = if j = k.val then v else s.byteOf .ibuf j) ∧
    (∀ k v, s.pending = .writeByte .bbuf k v :: rest →
      ∃ t, step s = .next t ∧
        t = { s with pending := rest, bbuf := t.bbuf, sActive := 0, sStride := 0, sPos := 0 } ∧
        ∀ j, t.byteOf .bbuf j = if j = k.val then v else s.byteOf .bbuf j) ∧
    (s.pending = [] → step s = .next s)

/-- R131: every command terminates. Every row of the table answers a next state in every state, and so does
every step: NSFC cannot hang (R112, R118). That there is no fault and no refusal at all is the model's reading (log
entry 12, DEDUCED); that a host read of OBUF from CAP on is answered (log entry 13) and that a step with nothing
pending is (log entry 10) are its choices. -/
def Obligations.EveryStepCompletes : Prop :=
  (∀ (i : Instr) (s : State), ∃ t, exec i s = .next t) ∧ (∀ s : State, ∃ t, step s = .next t)

/-- LD IBUF and LD BBUF (R64) store the bytes from index 0 and set the length, one host access after the other;
LD BBUF ends the sample sequence; nothing else changes. -/
def Obligations.LoadingABufferStoresTheBytes : Prop :=
  ∀ (s : State) (bytes : List Byte), bytes.length ≤ Config.nmax →
    (∃ t, runScript (ldIbuf bytes) s = .next t ∧
      t = { s with ibuf := t.ibuf, ilen := t.ilen, pending := [] } ∧
      t.ilen.toNat = bytes.length ∧ t.memRead .ibuf 0 t.ilen.toNat = bytes ∧
      ∀ k, bytes.length ≤ k → t.byteOf .ibuf k = s.byteOf .ibuf k) ∧
    (∃ t, runScript (ldBbuf bytes) s = .next t ∧
      t = { s with bbuf := t.bbuf, blen := t.blen, sActive := 0, sStride := 0, sPos := 0, pending := [] } ∧
      t.blen.toNat = bytes.length ∧ t.memRead .bbuf 0 t.blen.toNat = bytes ∧
      ∀ k, bytes.length ≤ k → t.byteOf .bbuf k = s.byteOf .bbuf k)

/-! ### Reset and parameters -/

/-- R26, R119: the reset the host applies, in any state, leaves every register, length and iterator field at the
value of R26, and the parameters as they were (R121); and the machine's reset state has the values of R26. Of the
buffer bytes R26 says only that they are unspecified. -/
def Obligations.ResetLeavesTheResetValues : Prop :=
  (∀ (s : State) (rest : List HostAction), s.pending = .reset :: rest →
    ∃ t, step s = .next t ∧ resetValues t ∧ t.cfg = s.cfg ∧ t.pending = rest) ∧
  resetValues State.reset

/-- R122: the outcome of each command as the first command after reset, at the default parameters. -/
def Obligations.FirstCommandAfterReset : Prop :=
  (∃ t, exec .hdrpack State.reset = .next t ∧ t.status = 0x04 ∧ t.rHdr = 0) ∧
  (∃ t, exec .hdrunpk State.reset = .next t ∧ t.status = 0x04) ∧
  (∃ t, exec .enc State.reset = .next t ∧ t.olen = 4 ∧
    t.memRead .obuf 0 4 = [0x04, 0x00, 0x00, 0x00] ∧ t.status = 0x01) ∧
  (∃ t, exec .dec State.reset = .next t ∧ t.status = 0x04 ∧ t.blen = 0) ∧
  (∃ t, exec .smpstart State.reset = .next t ∧ t.status = 0x0C) ∧
  (∃ t, exec .smpnext State.reset = .next t ∧ t.status = 0x1C)

/-- R121: the parameters are the same before and after every step, a reset among them. (That they stand in a field
of State is the model's form, log entry 1.) -/
def Obligations.ParametersNeverChange : Prop :=
  ∀ s t : State, step s = .next t → t.cfg = s.cfg

/-- R27: a buffer byte that nothing has written since reset is one draw, the same at every read until the next
reset. A byte that is still unwritten after a step was unwritten before it and reads the same, unless the step
is a reset, after which no byte is written and each is a draw of the new epoch (the form of the draw is the
model's, log entry 2). -/
def Obligations.UnwrittenBytesKeepTheirDraw : Prop :=
  ∀ s t : State, step s = .next t →
    ((∀ rest, s.pending ≠ .reset :: rest) →
      ∀ b k, Memory.byteAt (t.memoryOf b) k = none →
        Memory.byteAt (s.memoryOf b) k = none ∧ t.byteOf b k = s.byteOf b k) ∧
    (∀ rest, s.pending = .reset :: rest →
      ∀ b k, Memory.byteAt (t.memoryOf b) k = none ∧ t.byteOf b k = Config.drawByte (s.epoch + 1) b k)

/-! ### Headers -/

/-- R67, R69: HDRPACK, in every state. The sentinel for CAP on a data-bearing type, the total itself up to 8191,
FramingError for every other total; the header is `type × 2^13 + lenf`. -/
def Obligations.HdrpackPacksTheHeader : Prop :=
  ∀ s : State,
    (s.aLen.toNat < 2 ∨ s.cfg.cap < s.aLen.toNat →
      exec .hdrpack s = .next { s with rHdr := 0, status := 0x04 }) ∧
    (2 ≤ s.aLen.toNat → s.aLen.toNat = s.cfg.cap → isData s.cfg s.aType = true →
      exec .hdrpack s = .next { s with rHdr := BitVec.ofNat 16 (s.aType.toNat * 8192), status := 0x01 }) ∧
    (2 ≤ s.aLen.toNat → s.aLen.toNat ≤ s.cfg.cap → s.aLen.toNat ≤ 8191 →
      ¬ (s.aLen.toNat = s.cfg.cap ∧ isData s.cfg s.aType = true) →
      exec .hdrpack s =
        .next { s with rHdr := BitVec.ofNat 16 (s.aType.toNat * 8192 + s.aLen.toNat), status := 0x01 }) ∧
    (8191 < s.aLen.toNat → ¬ (s.aLen.toNat = s.cfg.cap ∧ isData s.cfg s.aType = true) →
      exec .hdrpack s = .next { s with rHdr := 0, status := 0x04 })

/-- R68, R70: HDRUNPK, in every state. The type is `hdr[15:13]`, the length `hdr[12:0]` or, for 0 on a
data-bearing type, CAP; FramingError for a 0 on a control-bearing type, a 1, and a length above CAP. -/
def Obligations.HdrunpkUnpacksTheHeader : Prop :=
  ∀ s : State, s.cfg.wf →
    (∀ t lenf, t = s.aHdr.toNat / 8192 → lenf = s.aHdr.toNat % 8192 →
      (lenf = 0 → isData s.cfg (BitVec.ofNat 3 t) = true →
        exec .hdrunpk s =
          .next { s with rType := BitVec.ofNat 3 t, rLen := BitVec.ofNat 16 s.cfg.cap, status := 0x01 }) ∧
      (2 ≤ lenf → lenf ≤ s.cfg.cap →
        exec .hdrunpk s =
          .next { s with rType := BitVec.ofNat 3 t, rLen := BitVec.ofNat 16 lenf, status := 0x01 }) ∧
      (lenf = 0 ∧ isData s.cfg (BitVec.ofNat 3 t) = false ∨ lenf = 1 ∨ s.cfg.cap < lenf →
        exec .hdrunpk s = .next { s with rType := 0, rLen := 0, status := 0x04 }))

/-- R71: round trip of the header functions. -/
def Obligations.UnpackRecoversWhatPackWrote : Prop :=
  ∀ (cfg : Config) (t : FrameType) (total : Nat) (hdr : Half), cfg.wf →
    packHeader cfg t total = .ok hdr → unpackHeader cfg hdr = .ok (t, total)

/-- R72: the converse, up to the one case, and injectivity when `CAP ≥ 8192`. -/
def Obligations.PackRecoversWhatUnpackRead : Prop :=
  ∀ cfg : Config, cfg.wf →
    (∀ (hdr : Half) (t : FrameType) (declared : Nat), unpackHeader cfg hdr = .ok (t, declared) →
      ∃ hdr', packHeader cfg t declared = .ok hdr' ∧
        (¬ (cfg.cap ≤ 8191 ∧ isData cfg t = true ∧ (headerLenf hdr).toNat = cfg.cap) → hdr' = hdr) ∧
        (cfg.cap ≤ 8191 ∧ isData cfg t = true ∧ (headerLenf hdr).toNat = cfg.cap → hdr' = mkHeader t 0)) ∧
    (8192 ≤ cfg.cap → ∀ (h k : Half) (p : FrameType × Nat),
      unpackHeader cfg h = .ok p → unpackHeader cfg k = .ok p → h = k)

/-! ### Frames -/

/-- R75, R51: `encodeFrame` succeeds exactly when `packHeader` does on `4 + len(payload)`, and lays out header,
`code16` and payload, the 16-bit fields little-endian, in exactly `total` bytes; the declared length of the frame
is `total`. -/
def Obligations.EncodeFrameLaysOutTheFrame : Prop :=
  ∀ (cfg : Config) (t : FrameType) (code : Half) (payload : List Byte), cfg.wf →
    (∀ e, packHeader cfg t (4 + payload.length) = .err e → encodeFrame cfg t code payload = .err e) ∧
    (∀ hdr, packHeader cfg t (4 + payload.length) = .ok hdr →
      ∃ b0 b1 b2 b3, encodeFrame cfg t code payload = .ok (b0 :: b1 :: b2 :: b3 :: payload) ∧
        b0.toNat = hdr.toNat % 256 ∧ b1.toNat = hdr.toNat / 256 ∧
        b2.toNat = code.toNat % 256 ∧ b3.toNat = code.toNat / 256 ∧
        b0.toNat = (headerLenf hdr).toNat % 256 ∧
        b1.toNat = (headerType hdr).toNat * 32 + (headerLenf hdr).toNat / 256 ∧
        le16 b0 b1 = hdr ∧ unpackHeader cfg (le16 b0 b1) = .ok (t, 4 + payload.length))

/-- R77: ENC, in every state of a well-formed configuration. On success OBUF holds the four header bytes and the
payload, its other bytes are as before, and `OLEN = 4 + ILEN`; the command fails exactly when `packHeader` fails on `4 + ILEN`, and then
`OLEN = 0` and OBUF is unchanged. -/
def Obligations.EncBuildsTheFrame : Prop :=
  ∀ s : State, s.cfg.wf →
    (∀ hdr, packHeader s.cfg s.aType (4 + s.ilen.toNat) = .ok hdr →
      ∃ t, exec .enc s = .next t ∧ t = { s with obuf := t.obuf, olen := t.olen, status := 0x01 } ∧
        t.olen.toNat = 4 + s.ilen.toNat ∧
        (t.byteOf .obuf 0).toNat = hdr.toNat % 256 ∧ (t.byteOf .obuf 1).toNat = hdr.toNat / 256 ∧
        (t.byteOf .obuf 2).toNat = s.aCode.toNat % 256 ∧ (t.byteOf .obuf 3).toNat = s.aCode.toNat / 256 ∧
        (∀ k, k < s.ilen.toNat → t.byteOf .obuf (4 + k) = s.byteOf .ibuf k) ∧
        (∀ k, 4 + s.ilen.toNat ≤ k → t.byteOf .obuf k = s.byteOf .obuf k)) ∧
    (∀ e, packHeader s.cfg s.aType (4 + s.ilen.toNat) = .err e →
      exec .enc s = .next { s with olen := 0, status := 0x04 })

/-- R76: the longest payload that encodes: `CAP - 4` bytes for a data-bearing type, `min(CAP, 8191) - 4` for a
control-bearing type; every shorter payload encodes too where the header field can hold its total. -/
def Obligations.LongestPayloadThatEncodes : Prop :=
  ∀ (cfg : Config) (t : FrameType) (code : Half) (payload : List Byte), cfg.wf →
    ((∃ frame, encodeFrame cfg t code payload = .ok frame) ↔
      (4 + payload.length ≤ min cfg.cap 8191 ∨ (4 + payload.length = cfg.cap ∧ isData cfg t = true))) ∧
    (∀ frame, encodeFrame cfg t code payload = .ok frame → 4 ≤ frame.length)

/-- R78: ENC does not look at `A_CODE` to decide anything, and DEC refuses what ENC let pass: a frame of a
control-bearing type with an unrecognised code encodes, and decoding it gives UnknownItemCode. -/
def Obligations.EncDoesNotCheckTheCode : Prop :=
  (∀ (s : State) (c : Half), ∃ t u, exec .enc s = .next t ∧ exec .enc { s with aCode := c } = .next u ∧
    u.status = t.status ∧ u.olen = t.olen) ∧
  (∀ (cfg : Config) (t : FrameType) (code : Half) (payload frame : List Byte), cfg.wf →
    isData cfg t = false → isItem cfg code = false → encodeFrame cfg t code payload = .ok frame →
    decodeFrame cfg frame = .err .unknownItemCode)

/-- R81, R82: DEC of a good control-bearing frame, for the command DEC (the header is in IBUF) and for the rows
DEC.T0 to DEC.T7 (the header is the row's, log entry 6), whichever types the parameter makes control-bearing. -/
def Obligations.DecOfAControlFrame : Prop :=
  ∀ (s : State) (t : FrameType) (lenf : LenField) (i : Instr), s.cfg.wf →
    (i = .dec ∧ le16 (s.byteOf .ibuf 0) (s.byteOf .ibuf 1) = mkHeader t lenf ∨
      i.headerFields = some (t, lenf)) →
    isData s.cfg t = false → lenf.toNat = s.ilen.toNat → 4 ≤ s.ilen.toNat → s.ilen.toNat ≤ s.cfg.cap →
    isItem s.cfg (le16 (s.byteOf .ibuf 2) (s.byteOf .ibuf 3)) = true →
    ∃ u, exec i s = .next u ∧
      u = { s with
        rType := t, rLen := s.ilen, rItem := le16 (s.byteOf .ibuf 2) (s.byteOf .ibuf 3), rItemV := 1,
        rSeq := 0, rSeqV := 0, bbuf := u.bbuf, blen := s.ilen - 4, sActive := 0, sStride := 0, sPos := 0,
        status := 0x01 } ∧
      ∀ k, k < s.ilen.toNat - 4 → u.byteOf .bbuf k = s.byteOf .ibuf (4 + k)

/-- R81, R83: DEC of a good data-bearing frame, its length given by the length field or by the sentinel, for the
command DEC and for the rows DEC.T0 to DEC.T7 (log entry 6), whichever types the parameter makes data-bearing. -/
def Obligations.DecOfADataFrame : Prop :=
  ∀ (s : State) (t : FrameType) (lenf : LenField) (i : Instr), s.cfg.wf →
    (i = .dec ∧ le16 (s.byteOf .ibuf 0) (s.byteOf .ibuf 1) = mkHeader t lenf ∨
      i.headerFields = some (t, lenf)) →
    isData s.cfg t = true →
    (lenf.toNat = s.ilen.toNat ∨ lenf = 0 ∧ s.ilen.toNat = s.cfg.cap) →
    4 ≤ s.ilen.toNat → s.ilen.toNat ≤ s.cfg.cap →
    ∃ u, exec i s = .next u ∧
      u = { s with
        rType := t, rLen := s.ilen, rItem := 0, rItemV := 0,
        rSeq := le16 (s.byteOf .ibuf 2) (s.byteOf .ibuf 3), rSeqV := 1,
        bbuf := u.bbuf, blen := s.ilen - 4, sActive := 0, sStride := 0, sPos := 0, status := 0x01 } ∧
      ∀ k, k < s.ilen.toNat - 4 → u.byteOf .bbuf k = s.byteOf .ibuf (4 + k)

/-- R79, R80, R84, R105 (F4 to F8): every cause of FramingError in DEC. Fewer than two bytes; the sentinel on a
control-bearing type; a declared length of 1 or above CAP; a declared length that is not ILEN; a complete
header in a frame of 2 or 3 bytes. The whole result group is cleared and BBUF keeps its bytes. For DEC and for
the rows DEC.T0 to DEC.T7 (log entry 6). -/
def Obligations.DecFailsOnMalformedFrames : Prop :=
  ∀ (s : State) (t : FrameType) (lenf : LenField) (i : Instr),
    (i = .dec ∧ le16 (s.byteOf .ibuf 0) (s.byteOf .ibuf 1) = mkHeader t lenf ∨
      i.headerFields = some (t, lenf)) →
    (s.ilen.toNat < 4 ∨
      lenf = 0 ∧ isData s.cfg t = false ∨
      lenf = 1 ∨
      s.cfg.cap < lenf.toNat ∨
      lenf = 0 ∧ s.ilen.toNat ≠ s.cfg.cap ∨
      lenf ≠ 0 ∧ lenf.toNat ≠ s.ilen.toNat) →
    exec i s = .next { s with
      rType := 0, rLen := 0, rItem := 0, rItemV := 0, rSeq := 0, rSeqV := 0, blen := 0,
      sActive := 0, sStride := 0, sPos := 0, status := 0x04 }

/-- R106, R111: the one cause of UnknownItemCode. After DEC `STATUS` is 0x08 exactly when the frame passes every
framing check, its type is control-bearing and its code is not recognised; the item is then reported as none.
No other command leaves 0x08. -/
def Obligations.UnknownItemCodeExactlyWhen : Prop :=
  ∀ s : State, (∀ i t, exec i s = .next t → t.status = 0x08 → i = .dec ∨ i.headerFields.isSome = true) ∧
    ∃ t, exec .dec s = .next t ∧
    (t.status = 0x08 ↔
      4 ≤ s.ilen.toNat ∧
      ∃ ty, unpackHeader s.cfg (le16 (s.byteOf .ibuf 0) (s.byteOf .ibuf 1)) = .ok (ty, s.ilen.toNat) ∧
        isData s.cfg ty = false ∧ isItem s.cfg (le16 (s.byteOf .ibuf 2) (s.byteOf .ibuf 3)) = false) ∧
    (t.status = 0x08 → t.rItem = 0 ∧ t.rItemV = 0)

/-- R85: round trip through a whole frame, control-bearing and data-bearing. -/
def Obligations.DecodeFrameRecoversWhatEncodeFrameBuilt : Prop :=
  ∀ (cfg : Config) (t : FrameType) (code : Half) (payload frame : List Byte), cfg.wf →
    encodeFrame cfg t code payload = .ok frame →
    (isData cfg t = false → isItem cfg code = true →
      decodeFrame cfg frame = .ok ⟨t, 4 + payload.length, some code, none, payload⟩) ∧
    (isData cfg t = true →
      decodeFrame cfg frame = .ok ⟨t, 4 + payload.length, none, some code, payload⟩)

/-- R85 on the machine: the host loads a payload, ENC, copies OBUF to IBUF, DEC (R64, R127). From any state of a
well-formed configuration, whenever the total fits, the type, the code (when recognised, on a control-bearing
type) and the payload come back. -/
def Obligations.EncodeCopyDecodeRoundTrip : Prop :=
  ∀ (s : State) (ty : FrameType) (code : Half) (payload : List Byte), s.cfg.wf →
    (4 + payload.length ≤ min s.cfg.cap 8191 ∨ (4 + payload.length = s.cfg.cap ∧ isData s.cfg ty = true)) →
    (isData s.cfg ty = true ∨ isItem s.cfg code = true) →
    ∃ t u, runScript (encLine ty code payload) s = .next t ∧ t.status = 0x01 ∧
      t.olen.toNat = 4 + payload.length ∧
      runScript (cpIbufObuf t ++ [.issue 3]) t = .next u ∧ u.status = 0x01 ∧
      u.rType = ty ∧ u.rLen.toNat = 4 + payload.length ∧
      (if isData s.cfg ty then u.rItemV = 0 ∧ u.rItem = 0 ∧ u.rSeqV = 1 ∧ u.rSeq = code
        else u.rItemV = 1 ∧ u.rItem = code ∧ u.rSeqV = 0 ∧ u.rSeq = 0) ∧
      u.blen.toNat = payload.length ∧ u.memRead .bbuf 0 u.blen.toNat = payload

/-- R86: a frame whose declared length disagrees with its byte count always fails; in particular the frame that
decodes, less its last byte or with one byte more, fails. -/
def Obligations.LengthMismatchAlwaysFails : Prop :=
  ∀ cfg : Config,
    (∀ (b0 b1 : Byte) (rest : List Byte) (t : FrameType) (d : Nat),
      unpackHeader cfg (le16 b0 b1) = .ok (t, d) → d ≠ rest.length + 2 →
      decodeFrame cfg (b0 :: b1 :: rest) = .err .framing) ∧
    (∀ (msg : List Byte) (f : DecodedFrame), decodeFrame cfg msg = .ok f →
      decodeFrame cfg msg.dropLast = .err .framing ∧
      ∀ b, decodeFrame cfg (msg ++ [b]) = .err .framing)

/-- R87: a control-bearing frame that passes steps (1) to (5) with an unrecognised item code fails with
UnknownItemCode; and DEC of it leaves `STATUS = 0x08` and `R_ITEM_V = 0`. -/
def Obligations.UnrecognisedItemCodeFails : Prop :=
  (∀ (cfg : Config) (b0 b1 b2 b3 : Byte) (body : List Byte) (t : FrameType),
    unpackHeader cfg (le16 b0 b1) = .ok (t, body.length + 4) → isData cfg t = false →
    isItem cfg (le16 b2 b3) = false →
    decodeFrame cfg (b0 :: b1 :: b2 :: b3 :: body) = .err .unknownItemCode) ∧
  (∀ (s : State) (t : FrameType), 4 ≤ s.ilen.toNat →
    unpackHeader s.cfg (le16 (s.byteOf .ibuf 0) (s.byteOf .ibuf 1)) = .ok (t, s.ilen.toNat) →
    isData s.cfg t = false → isItem s.cfg (le16 (s.byteOf .ibuf 2) (s.byteOf .ibuf 3)) = false →
    ∃ u, exec .dec s = .next u ∧ u.status = 0x08 ∧ u.rItemV = 0)

/-- R88: decode then encode. The code that is not none and the body encode again: to the frame itself, but for the
one case of R72, which `CAP ≥ 8192` rules out and in which the header is rewritten to the sentinel. So with
`CAP ≥ 8192` `decodeFrame` is injective on the frames it accepts. -/
def Obligations.EncodeFrameRecoversWhatDecodeFrameRead : Prop :=
  ∀ cfg : Config, cfg.wf →
    (∀ (b0 b1 : Byte) (rest : List Byte) (f : DecodedFrame), decodeFrame cfg (b0 :: b1 :: rest) = .ok f →
      ∃ code h0 h1, (f.item = some code ∧ f.seq = none ∨ f.item = none ∧ f.seq = some code) ∧
        encodeFrame cfg f.type code f.body = .ok (h0 :: h1 :: rest) ∧
        (8192 ≤ cfg.cap → h0 = b0 ∧ h1 = b1) ∧
        (¬ (cfg.cap ≤ 8191 ∧ isData cfg f.type = true ∧ (headerLenf (le16 b0 b1)).toNat = cfg.cap) →
          h0 = b0 ∧ h1 = b1) ∧
        (cfg.cap ≤ 8191 ∧ isData cfg f.type = true ∧ (headerLenf (le16 b0 b1)).toNat = cfg.cap →
          le16 h0 h1 = mkHeader f.type 0)) ∧
    (∀ (msg : List Byte) (f : DecodedFrame), decodeFrame cfg msg = .ok f → 4 ≤ msg.length) ∧
    (8192 ≤ cfg.cap →
      ∀ (m n : List Byte) (f : DecodedFrame), decodeFrame cfg m = .ok f → decodeFrame cfg n = .ok f → m = n)

/-! ### Samples -/

/-- R91: the stride of a width, for every natural number: the four widths, and nothing else. -/
def Obligations.StrideOnlyForTheFourWidths : Prop :=
  strideOf 8 = .ok 1 ∧ strideOf 16 = .ok 2 ∧ strideOf 24 = .ok 3 ∧ strideOf 32 = .ok 4 ∧
  ∀ w : Nat, w ≠ 8 → w ≠ 16 → w ≠ 24 → w ≠ 32 → strideOf w = .err .unsupportedSampleWidth

/-- R92: the sequence has exactly `floor(len(body) / s)` elements, and the last `len(body) mod s` bytes are never
read: the sequence of the body without them, and of the body with any other bytes in their place, is the same. -/
def Obligations.TrailingBytesAreDropped : Prop :=
  ∀ (cfg : Config) (w stride : Nat) (body tail : List Byte), strideOf w = .ok stride → tail.length < stride →
    stride ∣ body.length →
    ∃ es, getSamples cfg w (body ++ tail) = .ok es ∧ es.length = body.length / stride ∧
      getSamples cfg w body = .ok es

/-- R93, R96: element `k` is the little-endian value of bytes `k·s` to `k·s + s - 1`, extended. -/
def Obligations.ElementKDependsOnItsOwnBytes : Prop :=
  ∀ (cfg : Config) (w stride : Nat) (pre own post : List Byte), strideOf w = .ok stride →
    stride ∣ pre.length → own.length = stride →
    ∃ es, getSamples cfg w (pre ++ own ++ post) = .ok es ∧
      es[pre.length / stride]? = some (int32 (extend32 cfg (littleEndian own) stride))

/-- R97: extension to 32 bits. Without sign extension the upper bits are zero; with it they copy bit `8s - 1`;
at stride 4 the two agree. -/
def Obligations.ExtensionOfNarrowSamples : Prop :=
  ∀ (cfg : Config) (raw stride : Nat), 1 ≤ stride → stride ≤ 4 → raw < 2 ^ (8 * stride) →
    (cfg.signExtend = false → (extend32 cfg raw stride).toNat = raw) ∧
    (cfg.signExtend = true →
      int32 (extend32 cfg raw stride) =
        if raw < 2 ^ (8 * stride - 1) then (raw : Int) else (raw : Int) - 2 ^ (8 * stride)) ∧
    (stride = 4 → (extend32 cfg raw stride).toNat = raw)

/-- R100: the source's worked examples, under both values of `SMP_SIGN_EXTEND`. -/
def Obligations.WorkedExamplesOfGetSamples : Prop :=
  ∀ sign : Bool, ∀ body : List Byte,
    getSamples { Config.default with signExtend := sign } 8 [0x01, 0x02, 0x03, 0x04] = .ok [1, 2, 3, 4] ∧
    getSamples { Config.default with signExtend := sign } 16 [0x01, 0x00, 0x02, 0x00] = .ok [1, 2] ∧
    getSamples { Config.default with signExtend := sign } 16 [0x01, 0x00, 0x02] = .ok [1] ∧
    getSamples { Config.default with signExtend := sign } 40 body = .err .unsupportedSampleWidth

/-- R94: SMPSTART, in every state: a legal width starts a sequence at position 0 with stride `width / 8` and
clears `R_SAMPLE`; any other width fails at once, whatever the body. -/
def Obligations.SmpstartStartsOrRefuses : Prop :=
  ∀ s : State,
    (s.aWidth ∈ ([8, 16, 24, 32] : List Byte) →
      exec .smpstart s = .next { s with
        sActive := 1, sStride := BitVec.ofNat 3 (s.aWidth.toNat / 8), sPos := 0, rSample := 0,
        status := 0x01 }) ∧
    (s.aWidth ∉ ([8, 16, 24, 32] : List Byte) →
      exec .smpstart s = .next { s with
        sActive := 0, sStride := 0, sPos := 0, rSample := 0, status := 0x0C })

/-- R65, R94: SMPSTART.W8 to SMPSTART.W32, in every state: `A_WIDTH` is written and the sequence starts. That the
row writes `A_WIDTH` is the pseudo-instruction's first half (R65; log entry 7). -/
def Obligations.SmpstartAtEachLegalWidth : Prop :=
  ∀ s : State,
    exec .smpstartW8 s = .next { s with
      aWidth := 8, sActive := 1, sStride := 1, sPos := 0, rSample := 0, status := 0x01 } ∧
    exec .smpstartW16 s = .next { s with
      aWidth := 16, sActive := 1, sStride := 2, sPos := 0, rSample := 0, status := 0x01 } ∧
    exec .smpstartW24 s = .next { s with
      aWidth := 24, sActive := 1, sStride := 3, sPos := 0, rSample := 0, status := 0x01 } ∧
    exec .smpstartW32 s = .next { s with
      aWidth := 32, sActive := 1, sStride := 4, sPos := 0, rSample := 0, status := 0x01 }

/-- R95, R96: SMPNEXT, in every state: BadCommand with no sequence; with a full stride left the little-endian
sample at `S_POS`, extended, and `S_POS` advanced; else the end, `S_POS` unchanged. The byte sum is written out
for each stride. -/
def Obligations.SmpnextProducesTheNextSample : Prop :=
  ∀ s : State,
    (s.sActive = 0 → exec .smpnext s = .next { s with rSample := 0, status := 0x1C }) ∧
    (s.sActive = 1 → s.blen.toNat < s.sPos.toNat + s.sStride.toNat →
      exec .smpnext s = .next { s with rSample := 0, status := 0x03 }) ∧
    (s.sActive = 1 → s.sPos.toNat + s.sStride.toNat ≤ s.blen.toNat →
      ∀ raw : Nat,
        (s.sStride = 1 ∧ raw = (s.byteOf .bbuf s.sPos.toNat).toNat ∨
         s.sStride = 2 ∧ raw = (s.byteOf .bbuf s.sPos.toNat).toNat
            + 256 * (s.byteOf .bbuf (s.sPos.toNat + 1)).toNat ∨
         s.sStride = 3 ∧ raw = (s.byteOf .bbuf s.sPos.toNat).toNat
            + 256 * (s.byteOf .bbuf (s.sPos.toNat + 1)).toNat
            + 65536 * (s.byteOf .bbuf (s.sPos.toNat + 2)).toNat ∨
         s.sStride = 4 ∧ raw = (s.byteOf .bbuf s.sPos.toNat).toNat
            + 256 * (s.byteOf .bbuf (s.sPos.toNat + 1)).toNat
            + 65536 * (s.byteOf .bbuf (s.sPos.toNat + 2)).toNat
            + 16777216 * (s.byteOf .bbuf (s.sPos.toNat + 3)).toNat) →
        exec .smpnext s = .next { s with
          rSample := extend32 s.cfg raw s.sStride.toNat,
          sPos := BitVec.ofNat 16 (s.sPos.toNat + s.sStride.toNat), status := 0x01 })

/-- R98: the iterator is `getSamples`. The host does LD BBUF, WR A_WIDTH, SMPSTART and then SMPNEXT `k` times.
If `getSamples` refuses the width, SMPSTART reports it and every SMPNEXT is BadCommand; if it yields a list,
SMPSTART succeeds, SMPNEXT number `n + 1` yields element `n`, and every later one reports the end. And so the
loop of GETSAMPLES (R65), which stops by what it reads in STATUS, collects exactly the list of `getSamples` and
ends with the end of the sequence, or collects nothing and ends with BadCommand after a refused width; however many
more SMPNEXT it were allowed, it collects no more, so its bound is never what stops it. The model's own (log entry
14, DESIGN CHOICE): that bound, and that the loop tests STATUS after each SMPNEXT and not before the first, so that
after a refused width one SMPNEXT is issued and the loop ends at 0x1C. -/
def Obligations.IteratorIsGetSamples : Prop :=
  (∀ (s : State) (body : List Byte) (w : Byte) (k : Nat), body.length ≤ Config.nmax →
    ∃ t, runScript (getSamplesLine w body k) s = .next t ∧
      match getSamples s.cfg w.toNat body with
      | .err e => e = .unsupportedSampleWidth ∧ t.status = if k = 0 then 0x0C else 0x1C
      | .ok es =>
        (k = 0 → t.status = 0x01) ∧
        ∀ n, k = n + 1 →
          match es[n]? with
          | some e => t.status = 0x01 ∧ int32 t.rSample = e
          | none => t.status = 0x03) ∧
  (∀ (s : State) (body : List Byte) (w : Byte), body.length ≤ Config.nmax →
    ∃ started es t, runScript (getSamplesLine w body 0) s = .next started ∧
      runGetSamples w body s = .next (es, t) ∧
      (∀ budget, body.length < budget → collectSamples budget started = .next (es, t)) ∧
      match getSamples s.cfg w.toNat body with
      | .err _ => es = [] ∧ t.status = 0x1C
      | .ok l => es = l ∧ t.status = 0x03)

/-- R99 (restartable), R42: however far a sequence got, SMPSTART over the unchanged body and width gives the very
state the first SMPSTART gave. -/
def Obligations.SequenceIsRestartable : Prop :=
  ∀ (s t u : State) (k : Nat), exec .smpstart s = .next t → t.pending = [] →
    runScript (List.replicate k (.issue 5)) t = .next u → exec .smpstart u = .next t

/-- R25, R125: changing the body ends the sequence. A host write of any BBUF byte or of BLEN, or a DEC, successful
or not, leaves no sequence, and an SMPNEXT after it is BadCommand, whatever the host does in between short of a
new SMPSTART. -/
def Obligations.ChangingTheBodyEndsTheSequence : Prop :=
  ∀ (s : State) (a : HostAction) (between : List HostAction),
    ((∃ k v, a = .writeByte .bbuf k v) ∨ (∃ v, a = .write .blen v) ∨ a = .issue 3) → .issue 4 ∉ between →
    (∃ t, runScript [a] s = .next t ∧ t.sActive = 0 ∧ t.sStride = 0 ∧ t.sPos = 0) ∧
    (∃ u, runScript (a :: between ++ [.issue 5]) s = .next u ∧ u.status = 0x1C ∧ u.rSample = 0)

/-- R113: after a failed DEC, SMPNEXT is BadCommand; SMPSTART with a legal width and then SMPNEXT is the end of
the sequence at once. In neither case is there a sample of a stale body. -/
def Obligations.NoSampleOfAStaleBodyAfterAFailedDec : Prop :=
  ∀ (s t : State) (w : Byte), exec .dec s = .next t → statusOK t.status = false →
    w ∈ ([8, 16, 24, 32] : List Byte) →
    (∃ u, runScript [.issue 5] t = .next u ∧ u.status = 0x1C ∧ u.rSample = 0) ∧
    (∃ u, runScript [.write .aWidth w, .issue 4, .issue 5] t = .next u ∧ u.status = 0x03 ∧ u.rSample = 0)

/-! ### Reserved codes, errors and STATUS -/

/-- R105: every cause of FramingError, command by command (F1 to F8), and no other: HDRPACK by its total, ENC by
`4 + ILEN`, HDRUNPK by its header, DEC by its byte count, its header, the declared length that is not the
byte count, or the missing `code16`. No other command reports it. -/
def Obligations.FramingErrorExactlyWhen : Prop :=
  ∀ s t : State, s.cfg.wf →
    (exec .hdrpack s = .next t → (t.status = 0x04 ↔
      s.aLen.toNat < 2 ∨ s.cfg.cap < s.aLen.toNat ∨
      (8191 < s.aLen.toNat ∧ ¬ (s.aLen.toNat = s.cfg.cap ∧ isData s.cfg s.aType = true)))) ∧
    (exec .enc s = .next t → (t.status = 0x04 ↔
      s.cfg.cap < 4 + s.ilen.toNat ∨
      (8191 < 4 + s.ilen.toNat ∧ ¬ (4 + s.ilen.toNat = s.cfg.cap ∧ isData s.cfg s.aType = true)))) ∧
    (exec .hdrunpk s = .next t → (t.status = 0x04 ↔ illegalHeader s.cfg s.aHdr)) ∧
    (exec .dec s = .next t → (t.status = 0x04 ↔
      s.ilen.toNat < 2 ∨
      illegalHeader s.cfg (le16 (s.byteOf .ibuf 0) (s.byteOf .ibuf 1)) ∨
      (∀ declared, announcedLength s.cfg (headerType (le16 (s.byteOf .ibuf 0) (s.byteOf .ibuf 1)))
        (headerLenf (le16 (s.byteOf .ibuf 0) (s.byteOf .ibuf 1))) = some declared → declared ≠ s.ilen.toNat) ∨
      s.ilen.toNat = 2 ∨ s.ilen.toNat = 3)) ∧
    (∀ i, exec i s = .next t → t.status = 0x04 →
      i = .hdrpack ∨ i = .hdrunpk ∨ i = .enc ∨ i = .dec ∨ i.headerFields.isSome = true)

/-- R108: the one cause of UnsupportedSampleWidth: SMPSTART at a width outside 8, 16, 24, 32, whatever the body. -/
def Obligations.UnsupportedSampleWidthExactlyWhen : Prop :=
  ∀ (i : Instr) (s t : State), exec i s = .next t →
    (t.status = 0x0C ↔ i = .smpstart ∧ s.aWidth ∉ ([8, 16, 24, 32] : List Byte))

/-- R109: the two causes of BadCommand: a reserved command code, which writes `STATUS <- 0x1C` and nothing else, and
SMPNEXT with no active sequence. -/
def Obligations.BadCommandExactlyWhen : Prop :=
  (∀ s : State,
    exec .reserved6 s = .next { s with status := 0x1C } ∧ exec .reserved7 s = .next { s with status := 0x1C }) ∧
  ∀ (i : Instr) (s t : State), exec i s = .next t →
    (t.status = 0x1C ↔ i = .reserved6 ∨ i = .reserved7 ∨ i = .smpnext ∧ s.sActive = 0)

/-- R107: what a failed command writes, row by row: when `STATUS.OK` is 0 after a command, the whole result group
is cleared, `STATUS` is the code shifted left by two, and everything else, buffer bytes included, is as before. -/
def Obligations.FailureClearsTheResultGroup : Prop :=
  ∀ (i : Instr) (s t : State), exec i s = .next t → statusOK t.status = false →
    (i = .hdrpack → t = { s with rHdr := 0, status := 0x04 }) ∧
    (i = .hdrunpk → t = { s with rType := 0, rLen := 0, status := 0x04 }) ∧
    (i = .enc → t = { s with olen := 0, status := 0x04 }) ∧
    (i = .dec ∨ i.headerFields.isSome = true →
      (t.status = 0x04 ∨ t.status = 0x08) ∧
      t = { s with
        rType := 0, rLen := 0, rItem := 0, rItemV := 0, rSeq := 0, rSeqV := 0, blen := 0,
        sActive := 0, sStride := 0, sPos := 0, status := t.status }) ∧
    (i = .smpstart →
      t = { s with sActive := 0, sStride := 0, sPos := 0, rSample := 0, status := 0x0C }) ∧
    (i = .smpnext → t = { s with rSample := 0, status := 0x1C }) ∧
    (i = .reserved6 ∨ i = .reserved7 → t = { s with status := 0x1C })

/-- R104: which `STATUS` value each command can leave: 0x01 success; 0x03 SMPNEXT alone; 0x04 the frame commands;
0x08 DEC alone; 0x0C SMPSTART alone; 0x1C SMPNEXT and the reserved codes; 0x00 is the reset value; codes 4, 5 and 6
never. -/
def Obligations.StatusValueByCommand : Prop :=
  (∀ (i : Instr) (s t : State), exec i s = .next t →
    (i = .hdrpack ∨ i = .hdrunpk ∨ i = .enc → t.status ∈ ([0x01, 0x04] : List Byte)) ∧
    (i = .dec ∨ i.headerFields.isSome = true → t.status ∈ ([0x01, 0x04, 0x08] : List Byte)) ∧
    (i = .smpstart → t.status ∈ ([0x01, 0x0C] : List Byte)) ∧
    (i.sampleWidth.isSome = true → t.status = 0x01) ∧
    (i = .smpnext → t.status ∈ ([0x01, 0x03, 0x1C] : List Byte)) ∧
    (i = .reserved6 ∨ i = .reserved7 → t.status = 0x1C)) ∧
  State.reset.status = 0x00

/-- R22, R112, R124: every command writes all of `STATUS` and reads none of it, so an earlier outcome is gone and
never matters; and `EOS` is 1 only after an SMPNEXT that found less than a stride left. -/
def Obligations.StatusIsOverwrittenByEveryCommand : Prop :=
  ∀ (i : Instr) (s : State), (∀ v, exec i { s with status := v } = exec i s) ∧
    ∀ t, exec i s = .next t →
      (statusEOS t.status = true ↔
        i = .smpnext ∧ s.sActive ≠ 0 ∧ s.blen.toNat < s.sPos.toNat + s.sStride.toNat)

/-- R23: after a successful DEC exactly one valid bit is 1, by the class of the type; after a failed one both
are 0. -/
def Obligations.ExactlyOneValidBitAfterDec : Prop :=
  ∀ (i : Instr) (s t : State), i = .dec ∨ i.headerFields.isSome = true → exec i s = .next t →
    (statusOK t.status = true → isData s.cfg t.rType = false → t.rItemV = 1 ∧ t.rSeqV = 0) ∧
    (statusOK t.status = true → isData s.cfg t.rType = true → t.rItemV = 0 ∧ t.rSeqV = 1) ∧
    (statusOK t.status = false → t.rItemV = 0 ∧ t.rSeqV = 0)

/-! ### Frames: what a command leaves unchanged -/

/-- The frame of HDRPACK, HDRUNPK and the reserved codes, which store to no buffer: everything but the result
group of R20 is as before, every byte of every buffer included. -/
def Obligations.HeaderCommandsFrame : Prop :=
  ∀ (i : Instr) (s t : State), exec i s = .next t →
    (i = .hdrpack → t = { s with rHdr := t.rHdr, status := t.status }) ∧
    (i = .hdrunpk → t = { s with rType := t.rType, rLen := t.rLen, status := t.status }) ∧
    (i = .reserved6 ∨ i = .reserved7 → t = { s with status := t.status }) ∧
    (i = .hdrpack ∨ i = .hdrunpk ∨ i = .reserved6 ∨ i = .reserved7 →
      ∀ b k, t.byteOf b k = s.byteOf b k)

/-- The frame of ENC: everything but OBUF, OLEN and STATUS is as before, and of OBUF every byte outside the
`4 + ILEN` bytes stored from index 0; a failed ENC stores nothing. -/
def Obligations.EncFrame : Prop :=
  ∀ s t : State, exec .enc s = .next t →
    t = { s with obuf := t.obuf, olen := t.olen, status := t.status } ∧
    ∀ b k, ¬ (b = .obuf ∧ statusOK t.status = true ∧ k < 4 + s.ilen.toNat) → t.byteOf b k = s.byteOf b k

/-- The frame of DEC and of DEC.T0 to DEC.T7: everything but the result group of R20 is as before, and of BBUF
every byte outside the `ILEN - 4` bytes stored from index 0; a failed DEC stores nothing. -/
def Obligations.DecFrame : Prop :=
  ∀ (i : Instr) (s t : State), i = .dec ∨ i.headerFields.isSome = true → exec i s = .next t →
    t = { s with
      rType := t.rType, rLen := t.rLen, rItem := t.rItem, rItemV := t.rItemV, rSeq := t.rSeq, rSeqV := t.rSeqV,
      bbuf := t.bbuf, blen := t.blen, sActive := 0, sStride := 0, sPos := 0, status := t.status } ∧
    ∀ b k, ¬ (b = .bbuf ∧ statusOK t.status = true ∧ k < s.ilen.toNat - 4) → t.byteOf b k = s.byteOf b k

/-- The frame of SMPSTART, of SMPSTART.W8 to W32 (which also write `A_WIDTH`, R65, log entry 7) and of SMPNEXT, which store to
no buffer: everything but the result group of R20 is as before, every byte of every buffer included. -/
def Obligations.SampleCommandsFrame : Prop :=
  ∀ (i : Instr) (s t : State), exec i s = .next t →
    (i = .smpstart → t = { s with
      sActive := t.sActive, sStride := t.sStride, sPos := t.sPos, rSample := t.rSample, status := t.status }) ∧
    (i.sampleWidth.isSome = true → t = { s with
      aWidth := t.aWidth, sActive := t.sActive, sStride := t.sStride, sPos := t.sPos, rSample := t.rSample,
      status := t.status }) ∧
    (i = .smpnext → t = { s with rSample := t.rSample, sPos := t.sPos, status := t.status }) ∧
    (i = .smpstart ∨ i.sampleWidth.isSome = true ∨ i = .smpnext → ∀ b k, t.byteOf b k = s.byteOf b k)

/-! ### Whole-machine rules -/

/-- R16, R18: NSFC only reads the operand registers, ILEN and IBUF and never writes them: whatever code the host
issues, and whatever row it runs, they stay as they are. -/
def Obligations.CommandsNeverWriteOperands : Prop :=
  ∀ (s t : State) (op : BitVec 3) (rest : List HostAction), s.pending = .issue op :: rest → step s = .next t →
    sameOperands s t ∧ t.epoch = s.epoch ∧ t.pending = rest

/-- R14, R20, R90: a command's results are a function of what R20 lists as read and of the parameters, and of
nothing else: two states that agree on these, and may differ in everything else, give results that agree on
everything R20 lists as written. For the table rows the inputs are the model's and not R20's: a DEC.Tk row reads
IBUF from index 2 only, its header being its own word (log entry 6, DEDUCED), and a SMPSTART.Wn row reads no
operand, its width being its own (log entry 7, DEDUCED). -/
def Obligations.ResultsDependOnlyOnTheListedInputs : Prop :=
  ∀ (i : Instr) (s t s' t' : State), sameInputs i s t → exec i s = .next s' → exec i t = .next t' →
    sameOutputs i s' t'

/-- R42: HDRPACK, HDRUNPK, ENC, DEC and SMPSTART are repeatable: issued again at once they change nothing. -/
def Obligations.RepeatingACommandChangesNothing : Prop :=
  ∀ (i : Instr) (s t : State), i ∈ ([.hdrpack, .hdrunpk, .enc, .dec, .smpstart] : List Instr) →
    exec i s = .next t → exec i t = .next t

/-- THE INVARIANT THAT EVERY STEP KEEPS: the legal STATUS values (R22), the bounds of R_LEN, OLEN and the
iterator (R17, R18, R19, R76), the valid bits (R23), recognised item codes (R54), the parameters' constraints (R6)
and each buffer's canonical form and capacity (R18, R35, R48; the form is the model's, log entry 3). -/
def Obligations.EveryStepKeepsTheInvariant : Prop :=
  ∀ s t : State, StateInv s → step s = .next t → StateInv t

/-- The invariant holds right after reset. -/
def Obligations.ResetMeetsTheInvariant : Prop := StateInv State.reset

/-! ### Host reads, and an unrecognised item code for the rows -/

/-- What a host read returns: the register of that name and no other. After a host write of an operand register,
ILEN or BLEN it returns the value written, and every other register reads as before; after an ignored write, or
after reads, every register (and, after reads, every buffer byte) reads as before (R16, R17, R18, R22, R42, R44). That
a write of OLEN or STATUS is ignored is the model's reading (log entry 8, DEDUCED), and that an OBUF byte from CAP on
can be read at all its choice (log entry 13). -/
def Obligations.HostReadsReturnTheRegister : Prop :=
  (∀ s : State,
    s.readReg .aType = s.aType ∧ s.readReg .aLen = s.aLen ∧ s.readReg .aHdr = s.aHdr ∧
    s.readReg .aCode = s.aCode ∧ s.readReg .aWidth = s.aWidth ∧
    s.readReg .rHdr = s.rHdr ∧ s.readReg .rType = s.rType ∧ s.readReg .rLen = s.rLen ∧
    s.readReg .rItem = s.rItem ∧ s.readReg .rItemV = s.rItemV ∧ s.readReg .rSeq = s.rSeq ∧
    s.readReg .rSeqV = s.rSeqV ∧ s.readReg .rSample = s.rSample ∧
    s.readReg .ilen = s.ilen ∧ s.readReg .olen = s.olen ∧ s.readReg .blen = s.blen ∧
    s.readReg .status = s.status) ∧
  (∀ (s : State) (rest : List HostAction) (r : Reg) (v : BitVec r.width), s.pending = .write r v :: rest →
    ∃ t, step s = .next t ∧
      (r ∈ ([.aType, .aLen, .aHdr, .aCode, .aWidth, .ilen, .blen] : List Reg) →
        t.readReg r = v ∧ ∀ q, q ≠ r → t.readReg q = s.readReg q) ∧
      (r ∈ ([.rHdr, .rType, .rLen, .rItem, .rItemV, .rSeq, .rSeqV, .rSample, .olen, .status] : List Reg) →
        ∀ q, t.readReg q = s.readReg q)) ∧
  (∀ (s : State) (rest : List HostAction) (a : HostAction), (∃ r, a = .read r) ∨ (∃ b k, a = .readByte b k) →
    s.pending = a :: rest →
    ∃ t, step s = .next t ∧ (∀ q, t.readReg q = s.readReg q) ∧ ∀ b k, t.byteOf b k = s.byteOf b k)

/-- UnknownItemCode, for DEC (the header is in IBUF) and for the rows DEC.T0 to DEC.T7 (the header is the row's, log
entry 6, DEDUCED), whichever types the parameter makes control-bearing: exactly when the header announces ILEN bytes,
there are at least 4, the type is control-bearing and the code is not recognised. The whole result group is then
cleared and every buffer keeps its bytes (R79, R82, R107). -/
def Obligations.DecOfAnUnrecognisedItemCode : Prop :=
  ∀ (s : State) (t : FrameType) (lenf : LenField) (i : Instr),
    (i = .dec ∧ le16 (s.byteOf .ibuf 0) (s.byteOf .ibuf 1) = mkHeader t lenf ∨
      i.headerFields = some (t, lenf)) →
    ∃ u, exec i s = .next u ∧
      (u.status = 0x08 ↔
        unpackHeader s.cfg (mkHeader t lenf) = .ok (t, s.ilen.toNat) ∧ 4 ≤ s.ilen.toNat ∧
        isData s.cfg t = false ∧ isItem s.cfg (le16 (s.byteOf .ibuf 2) (s.byteOf .ibuf 3)) = false) ∧
      (u.status = 0x08 → u = { s with
        rType := 0, rLen := 0, rItem := 0, rItemV := 0, rSeq := 0, rSeqV := 0, blen := 0,
        sActive := 0, sStride := 0, sPos := 0, status := 0x08 })
end

