-- ==== Sys2Proof/Laws/State.lean ====
section
/-! SUPPORT. One lemma per field for each shared update of the state, so that no proof unfolds a record update. -/

namespace Sys2Proof.Machine

variable (s : State) (b : Buf) (m : Memory) (v : Byte)

/-! ### `setStatus` writes `STATUS` and nothing else. -/

@[simp] theorem State.setStatus_cfg : (s.setStatus v).cfg = s.cfg := rfl
@[simp] theorem State.setStatus_aType : (s.setStatus v).aType = s.aType := rfl
@[simp] theorem State.setStatus_aLen : (s.setStatus v).aLen = s.aLen := rfl
@[simp] theorem State.setStatus_aHdr : (s.setStatus v).aHdr = s.aHdr := rfl
@[simp] theorem State.setStatus_aCode : (s.setStatus v).aCode = s.aCode := rfl
@[simp] theorem State.setStatus_aWidth : (s.setStatus v).aWidth = s.aWidth := rfl
@[simp] theorem State.setStatus_rHdr : (s.setStatus v).rHdr = s.rHdr := rfl
@[simp] theorem State.setStatus_rType : (s.setStatus v).rType = s.rType := rfl
@[simp] theorem State.setStatus_rLen : (s.setStatus v).rLen = s.rLen := rfl
@[simp] theorem State.setStatus_rItem : (s.setStatus v).rItem = s.rItem := rfl
@[simp] theorem State.setStatus_rItemV : (s.setStatus v).rItemV = s.rItemV := rfl
@[simp] theorem State.setStatus_rSeq : (s.setStatus v).rSeq = s.rSeq := rfl
@[simp] theorem State.setStatus_rSeqV : (s.setStatus v).rSeqV = s.rSeqV := rfl
@[simp] theorem State.setStatus_rSample : (s.setStatus v).rSample = s.rSample := rfl
@[simp] theorem State.setStatus_ibuf : (s.setStatus v).ibuf = s.ibuf := rfl
@[simp] theorem State.setStatus_ilen : (s.setStatus v).ilen = s.ilen := rfl
@[simp] theorem State.setStatus_obuf : (s.setStatus v).obuf = s.obuf := rfl
@[simp] theorem State.setStatus_olen : (s.setStatus v).olen = s.olen := rfl
@[simp] theorem State.setStatus_bbuf : (s.setStatus v).bbuf = s.bbuf := rfl
@[simp] theorem State.setStatus_blen : (s.setStatus v).blen = s.blen := rfl
@[simp] theorem State.setStatus_sActive : (s.setStatus v).sActive = s.sActive := rfl
@[simp] theorem State.setStatus_sStride : (s.setStatus v).sStride = s.sStride := rfl
@[simp] theorem State.setStatus_sPos : (s.setStatus v).sPos = s.sPos := rfl
@[simp] theorem State.setStatus_status : (s.setStatus v).status = v := rfl
@[simp] theorem State.setStatus_epoch : (s.setStatus v).epoch = s.epoch := rfl
@[simp] theorem State.setStatus_pending : (s.setStatus v).pending = s.pending := rfl

/-! ### `endSequence` clears the iterator and nothing else. -/

@[simp] theorem State.endSequence_cfg : s.endSequence.cfg = s.cfg := rfl
@[simp] theorem State.endSequence_aType : s.endSequence.aType = s.aType := rfl
@[simp] theorem State.endSequence_aLen : s.endSequence.aLen = s.aLen := rfl
@[simp] theorem State.endSequence_aHdr : s.endSequence.aHdr = s.aHdr := rfl
@[simp] theorem State.endSequence_aCode : s.endSequence.aCode = s.aCode := rfl
@[simp] theorem State.endSequence_aWidth : s.endSequence.aWidth = s.aWidth := rfl
@[simp] theorem State.endSequence_rHdr : s.endSequence.rHdr = s.rHdr := rfl
@[simp] theorem State.endSequence_rType : s.endSequence.rType = s.rType := rfl
@[simp] theorem State.endSequence_rLen : s.endSequence.rLen = s.rLen := rfl
@[simp] theorem State.endSequence_rItem : s.endSequence.rItem = s.rItem := rfl
@[simp] theorem State.endSequence_rItemV : s.endSequence.rItemV = s.rItemV := rfl
@[simp] theorem State.endSequence_rSeq : s.endSequence.rSeq = s.rSeq := rfl
@[simp] theorem State.endSequence_rSeqV : s.endSequence.rSeqV = s.rSeqV := rfl
@[simp] theorem State.endSequence_rSample : s.endSequence.rSample = s.rSample := rfl
@[simp] theorem State.endSequence_ibuf : s.endSequence.ibuf = s.ibuf := rfl
@[simp] theorem State.endSequence_ilen : s.endSequence.ilen = s.ilen := rfl
@[simp] theorem State.endSequence_obuf : s.endSequence.obuf = s.obuf := rfl
@[simp] theorem State.endSequence_olen : s.endSequence.olen = s.olen := rfl
@[simp] theorem State.endSequence_bbuf : s.endSequence.bbuf = s.bbuf := rfl
@[simp] theorem State.endSequence_blen : s.endSequence.blen = s.blen := rfl
@[simp] theorem State.endSequence_sActive : s.endSequence.sActive = 0 := rfl
@[simp] theorem State.endSequence_sStride : s.endSequence.sStride = 0 := rfl
@[simp] theorem State.endSequence_sPos : s.endSequence.sPos = 0 := rfl
@[simp] theorem State.endSequence_status : s.endSequence.status = s.status := rfl
@[simp] theorem State.endSequence_epoch : s.endSequence.epoch = s.epoch := rfl
@[simp] theorem State.endSequence_pending : s.endSequence.pending = s.pending := rfl

/-! ### `setMemory` replaces the written bytes of one buffer. -/

@[simp] theorem State.setMemory_cfg : (s.setMemory b m).cfg = s.cfg := by cases b <;> rfl
@[simp] theorem State.setMemory_aType : (s.setMemory b m).aType = s.aType := by cases b <;> rfl
@[simp] theorem State.setMemory_aLen : (s.setMemory b m).aLen = s.aLen := by cases b <;> rfl
@[simp] theorem State.setMemory_aHdr : (s.setMemory b m).aHdr = s.aHdr := by cases b <;> rfl
@[simp] theorem State.setMemory_aCode : (s.setMemory b m).aCode = s.aCode := by cases b <;> rfl
@[simp] theorem State.setMemory_aWidth : (s.setMemory b m).aWidth = s.aWidth := by cases b <;> rfl
@[simp] theorem State.setMemory_rHdr : (s.setMemory b m).rHdr = s.rHdr := by cases b <;> rfl
@[simp] theorem State.setMemory_rType : (s.setMemory b m).rType = s.rType := by cases b <;> rfl
@[simp] theorem State.setMemory_rLen : (s.setMemory b m).rLen = s.rLen := by cases b <;> rfl
@[simp] theorem State.setMemory_rItem : (s.setMemory b m).rItem = s.rItem := by cases b <;> rfl
@[simp] theorem State.setMemory_rItemV : (s.setMemory b m).rItemV = s.rItemV := by cases b <;> rfl
@[simp] theorem State.setMemory_rSeq : (s.setMemory b m).rSeq = s.rSeq := by cases b <;> rfl
@[simp] theorem State.setMemory_rSeqV : (s.setMemory b m).rSeqV = s.rSeqV := by cases b <;> rfl
@[simp] theorem State.setMemory_rSample : (s.setMemory b m).rSample = s.rSample := by cases b <;> rfl
@[simp] theorem State.setMemory_ibuf_ibuf : (s.setMemory .ibuf m).ibuf = m := rfl
@[simp] theorem State.setMemory_obuf_ibuf : (s.setMemory .obuf m).ibuf = s.ibuf := rfl
@[simp] theorem State.setMemory_bbuf_ibuf : (s.setMemory .bbuf m).ibuf = s.ibuf := rfl
@[simp] theorem State.setMemory_ilen : (s.setMemory b m).ilen = s.ilen := by cases b <;> rfl
@[simp] theorem State.setMemory_ibuf_obuf : (s.setMemory .ibuf m).obuf = s.obuf := rfl
@[simp] theorem State.setMemory_obuf_obuf : (s.setMemory .obuf m).obuf = m := rfl
@[simp] theorem State.setMemory_bbuf_obuf : (s.setMemory .bbuf m).obuf = s.obuf := rfl
@[simp] theorem State.setMemory_olen : (s.setMemory b m).olen = s.olen := by cases b <;> rfl
@[simp] theorem State.setMemory_ibuf_bbuf : (s.setMemory .ibuf m).bbuf = s.bbuf := rfl
@[simp] theorem State.setMemory_obuf_bbuf : (s.setMemory .obuf m).bbuf = s.bbuf := rfl
@[simp] theorem State.setMemory_bbuf_bbuf : (s.setMemory .bbuf m).bbuf = m := rfl
@[simp] theorem State.setMemory_blen : (s.setMemory b m).blen = s.blen := by cases b <;> rfl
@[simp] theorem State.setMemory_sActive : (s.setMemory b m).sActive = s.sActive := by cases b <;> rfl
@[simp] theorem State.setMemory_sStride : (s.setMemory b m).sStride = s.sStride := by cases b <;> rfl
@[simp] theorem State.setMemory_sPos : (s.setMemory b m).sPos = s.sPos := by cases b <;> rfl
@[simp] theorem State.setMemory_status : (s.setMemory b m).status = s.status := by cases b <;> rfl
@[simp] theorem State.setMemory_epoch : (s.setMemory b m).epoch = s.epoch := by cases b <;> rfl
@[simp] theorem State.setMemory_pending : (s.setMemory b m).pending = s.pending := by cases b <;> rfl

/-! ### The cleared result groups of R107, as record updates. -/

@[simp] theorem State.clearGroup_hdrpack : s.clearGroup .hdrpack = { s with rHdr := 0 } := rfl
@[simp] theorem State.clearGroup_hdrunpk : s.clearGroup .hdrunpk = { s with rType := 0, rLen := 0 } := rfl
@[simp] theorem State.clearGroup_enc : s.clearGroup .enc = { s with olen := 0 } := rfl
@[simp] theorem State.clearGroup_dec : s.clearGroup .dec = { s with
    rType := 0, rLen := 0, rItem := 0, rItemV := 0, rSeq := 0, rSeqV := 0, blen := 0,
    sActive := 0, sStride := 0, sPos := 0 } := rfl
@[simp] theorem State.clearGroup_smpstart :
    s.clearGroup .smpstart = { s with sActive := 0, sStride := 0, sPos := 0, rSample := 0 } := rfl
@[simp] theorem State.clearGroup_smpnext : s.clearGroup .smpnext = { s with rSample := 0 } := rfl
@[simp] theorem State.clearGroup_reserved : s.clearGroup .reserved = s := rfl

/-! ### The STATUS values of R22 and R104. -/

@[simp] theorem statusSuccess_eq : statusSuccess = 0x01 := by decide
@[simp] theorem statusEnd_eq : statusEnd = 0x03 := by decide
@[simp] theorem statusFailure_framing : statusFailure .framing = 0x04 := by decide
@[simp] theorem statusFailure_unknownItemCode : statusFailure .unknownItemCode = 0x08 := by decide
@[simp] theorem statusFailure_unsupportedSampleWidth : statusFailure .unsupportedSampleWidth = 0x0C := by decide
@[simp] theorem statusFailure_badCommand : statusFailure .badCommand = 0x1C := by decide

/-! ### Host writes (R16 to R18, R22, R25). -/

@[simp] theorem State.hostWrite_aType (x : BitVec 3) : s.hostWrite .aType x = { s with aType := x } := rfl
@[simp] theorem State.hostWrite_aLen (x : BitVec 16) : s.hostWrite .aLen x = { s with aLen := x } := rfl
@[simp] theorem State.hostWrite_aHdr (x : BitVec 16) : s.hostWrite .aHdr x = { s with aHdr := x } := rfl
@[simp] theorem State.hostWrite_aCode (x : BitVec 16) : s.hostWrite .aCode x = { s with aCode := x } := rfl
@[simp] theorem State.hostWrite_aWidth (x : BitVec 8) : s.hostWrite .aWidth x = { s with aWidth := x } := rfl
@[simp] theorem State.hostWrite_ilen (x : BitVec 16) : s.hostWrite .ilen x = { s with ilen := x } := rfl
@[simp] theorem State.hostWrite_blen (x : BitVec 16) :
    s.hostWrite .blen x = { s.endSequence with blen := x } := rfl

/-! ### Reading back a buffer's bytes. -/

@[simp] theorem State.memoryOf_setMemory : (s.setMemory b m).memoryOf b = m := by cases b <;> rfl
theorem State.memoryOf_setMemory_ne (c : Buf) (h : c ≠ b) : (s.setMemory b m).memoryOf c = s.memoryOf c := by
  cases b <;> cases c <;> first | rfl | exact absurd rfl h

end Sys2Proof.Machine
end

