-- ==== Sys2Proof/Laws/Ops.lean ====
section
/-! SUPPORT. The laws of the buffers: read after write, canonical form, `MemRead` and `MemWrite`. -/

namespace Sys2Proof.Machine

/-! ### One buffer -/

theorem Memory.byteAt_put (m : Memory) (i j : Nat) (v : Byte) :
    Memory.byteAt (Memory.put m i v) j = if j = i then some v else Memory.byteAt m j := by
  induction m with
  | nil => by_cases h : i = j <;> simp [Memory.put, Memory.byteAt, h, eq_comm]
  | cons c m ih =>
    obtain ⟨a, b⟩ := c
    simp only [Memory.put]
    split
    · by_cases h : i = j <;> simp [Memory.byteAt, h, eq_comm]
    · split
      · rename_i h; subst h
        by_cases h : i = j <;> simp [Memory.byteAt, h, eq_comm]
      · simp only [Memory.byteAt, ih]
        by_cases h : a = j
        · have hj : j ≠ i := by omega
          simp [h, hj]
        · simp [h]

theorem Memory.mem_put (m : Memory) (i : Nat) (v : Byte) (c : Host.Cell) (h : c ∈ Memory.put m i v) :
    c = (i, v) ∨ c ∈ m := by
  induction m with
  | nil => simpa [Memory.put] using h
  | cons d m ih =>
    simp only [Memory.put] at h
    split at h
    · simpa using h
    · split at h
      · rcases List.mem_cons.1 h with h | h
        · exact .inl h
        · exact .inr (List.mem_cons_of_mem _ h)
      · rcases List.mem_cons.1 h with h | h
        · exact .inr (h ▸ List.mem_cons_self)
        · exact (ih h).imp_right (List.mem_cons_of_mem _)

theorem Memory.wf_put (capacity : Nat) (m : Memory) (i : Nat) (v : Byte) (h : Memory.wf capacity m)
    (hi : i < capacity) : Memory.wf capacity (Memory.put m i v) := by
  refine ⟨?_, fun c hc => ?_⟩
  · have hs := h.1
    clear h
    induction m with
    | nil => simp [Memory.put]
    | cons d m ih =>
      obtain ⟨a, b⟩ := d
      have hs' := List.pairwise_cons.1 hs
      simp only [Memory.put]
      split
      · rename_i hlt
        refine List.pairwise_cons.2 ⟨fun c hc => ?_, hs⟩
        rcases List.mem_cons.1 hc with rfl | hc
        · exact hlt
        · exact Nat.lt_trans hlt (hs'.1 c hc)
      · split
        · rename_i heq; subst heq
          exact List.pairwise_cons.2 ⟨hs'.1, hs'.2⟩
        · refine List.pairwise_cons.2 ⟨fun c hc => ?_, ih hs'.2⟩
          rcases Memory.mem_put m i v c hc with rfl | hc
          · simp only; omega
          · exact hs'.1 c hc
  · rcases Memory.mem_put m i v c hc with rfl | hc
    · exact hi
    · exact h.2 c hc

theorem Memory.byteAt_putAll (m : Memory) (i j : Nat) (bytes : List Byte) :
    Memory.byteAt (Memory.putAll m i bytes) j =
      if i ≤ j ∧ j < i + bytes.length then bytes[j - i]? else Memory.byteAt m j := by
  induction bytes generalizing m i with
  | nil => simp [Memory.putAll]
  | cons v vs ih =>
    simp only [Memory.putAll, ih, Memory.byteAt_put, List.length_cons]
    by_cases h1 : j = i
    · subst h1; simp
    · by_cases h2 : i + 1 ≤ j ∧ j < i + 1 + vs.length
      · have h3 : i ≤ j ∧ j < i + (vs.length + 1) := by omega
        have h4 : j - i = (j - (i + 1)) + 1 := by omega
        rw [if_pos h2, if_pos h3, h4, List.getElem?_cons_succ]
      · have h3 : ¬ (i ≤ j ∧ j < i + (vs.length + 1)) := by omega
        rw [if_neg h2, if_neg h3, if_neg h1]

theorem Memory.wf_putAll (capacity : Nat) (m : Memory) (i : Nat) (bytes : List Byte)
    (h : Memory.wf capacity m) (hi : i + bytes.length ≤ capacity) :
    Memory.wf capacity (Memory.putAll m i bytes) := by
  induction bytes generalizing m i with
  | nil => exact h
  | cons v vs ih =>
    simp only [List.length_cons] at hi
    exact ih _ _ (Memory.wf_put _ _ _ _ h (by omega)) (by omega)

/-! ### Buffers of a state -/

/-- A second write of the same byte replaces the first. -/
theorem Memory.put_put (m : Memory) (i : Nat) (v w : Byte) :
    Memory.put (Memory.put m i v) i w = Memory.put m i w := by
  induction m with
  | nil => simp [Memory.put]
  | cons c m ih =>
    by_cases h1 : i < c.1
    · simp [Memory.put, h1]
    · by_cases h2 : i = c.1
      · simp [Memory.put, h2]
      · simp [Memory.put, h1, h2, ih]

/-- Writes of different bytes commute. -/
theorem Memory.put_comm (m : Memory) (i j : Nat) (v w : Byte) (h : i < j) :
    Memory.put (Memory.put m i v) j w = Memory.put (Memory.put m j w) i v := by
  induction m with
  | nil => simp [Memory.put, h, Nat.lt_asymm h, Nat.ne_of_gt h]
  | cons c m ih =>
    have hs := Nat.lt_asymm h
    rcases Nat.lt_trichotomy i c.1 with h1 | h1 | h1 <;> rcases Nat.lt_trichotomy j c.1 with h2 | h2 | h2 <;>
      first
      | omega
      | (simp [Memory.put, *, Nat.ne_of_gt, Nat.lt_asymm]; try omega)

/-- A write before a block of later bytes can be made after it. -/
theorem Memory.putAll_put (m : Memory) (i j : Nat) (v : Byte) (bytes : List Byte) (h : j < i) :
    Memory.putAll (Memory.put m j v) i bytes = Memory.put (Memory.putAll m i bytes) j v := by
  induction bytes generalizing m i with
  | nil => rfl
  | cons w bytes ih =>
    simp only [Memory.putAll]
    rw [Memory.put_comm m j i v w h, ih _ _ (by omega)]

/-- Storing the same bytes again changes nothing (R42). -/
theorem Memory.putAll_putAll (m : Memory) (i : Nat) (bytes : List Byte) :
    Memory.putAll (Memory.putAll m i bytes) i bytes = Memory.putAll m i bytes := by
  induction bytes generalizing m i with
  | nil => rfl
  | cons w bytes ih =>
    simp only [Memory.putAll]
    rw [← Memory.putAll_put _ _ _ _ _ (by omega), Memory.put_put, ih]

/-- No byte is listed right after reset, so each buffer has its canonical form then. -/
theorem Memory.wf_reset (cfg : Config) (epoch : Nat) (pending : List HostAction) (b : Buf) :
    Memory.wf ((State.resetOf cfg epoch pending).capacityOf b)
      ((State.resetOf cfg epoch pending).memoryOf b) := by
  cases b <;> simp [State.resetOf, State.memoryOf, Memory.wf]

/-- Read after write: the bytes of a `MemWrite` read as written, every other byte of every buffer as before. -/
theorem State.byteOf_memWrite (s : State) (b c : Buf) (i j : Nat) (bytes : List Byte) :
    (s.memWrite b i bytes).byteOf c j =
      if c = b ∧ i ≤ j ∧ j < i + bytes.length then (bytes[j - i]?).getD 0 else s.byteOf c j := by
  unfold State.memWrite State.byteOf
  by_cases hc : c = b
  · subst hc
    rw [State.memoryOf_setMemory, Memory.byteAt_putAll]
    by_cases hj : i ≤ j ∧ j < i + bytes.length
    · have : j - i < bytes.length := by omega
      simp [hj, this]
    · simp [hj]
  · rw [State.memoryOf_setMemory_ne _ _ _ _ hc]
    simp [hc]

@[simp] theorem State.length_memRead (s : State) (b : Buf) (i n : Nat) : (s.memRead b i n).length = n := by
  induction n generalizing i with
  | zero => rfl
  | succ n ih => simp [State.memRead, ih]

/-- Element `k` of a `MemRead` is byte `i + k` of the buffer. -/
theorem State.getElem?_memRead (s : State) (b : Buf) (i n k : Nat) :
    (s.memRead b i n)[k]? = if k < n then some (s.byteOf b (i + k)) else none := by
  induction n generalizing i k with
  | zero => simp [State.memRead]
  | succ n ih =>
    cases k with
    | zero => simp [State.memRead]
    | succ k =>
      simp only [State.memRead, List.getElem?_cons_succ, ih, Nat.add_lt_add_iff_right]
      rw [show i + 1 + k = i + (k + 1) by omega]

/-- `MemRead` depends on the bytes it names and on nothing else. -/
theorem State.memRead_congr (s t : State) (b c : Buf) (i j n : Nat)
    (h : ∀ k, k < n → s.byteOf b (i + k) = t.byteOf c (j + k)) : s.memRead b i n = t.memRead c j n := by
  apply List.ext_getElem?
  intro k
  rw [State.getElem?_memRead, State.getElem?_memRead]
  split
  · rw [h k ‹_›]
  · rfl

/-- A `MemRead` of just what a `MemWrite` wrote gives it back. -/
theorem State.memRead_eq_of_bytes (s : State) (b : Buf) (i : Nat) (bytes : List Byte)
    (h : ∀ k (hk : k < bytes.length), s.byteOf b (i + k) = bytes[k]) :
    s.memRead b i bytes.length = bytes := by
  apply List.ext_getElem?
  intro k
  rw [State.getElem?_memRead]
  split
  · rename_i hk; simp [h k hk, hk]
  · rename_i hk; simp [Nat.not_lt.1 hk]

@[simp] theorem State.setStatus_byteOf (s : State) (v : Byte) (b : Buf) (k : Nat) :
    (s.setStatus v).byteOf b k = s.byteOf b k := by cases b <;> rfl

@[simp] theorem State.endSequence_byteOf (s : State) (b : Buf) (k : Nat) :
    s.endSequence.byteOf b k = s.byteOf b k := by cases b <;> rfl

/-- What `raise` leaves: the cleared group and the failure status, and no byte of any buffer changed (R107). -/
theorem State.raise_eq (s : State) (g : ResultGroup) (e : ErrorKind) :
    s.raise g e = { s.clearGroup g with status := statusFailure e } := rfl

theorem State.raise_byteOf (s : State) (g : ResultGroup) (e : ErrorKind) (b : Buf) (k : Nat) :
    (s.raise g e).byteOf b k = s.byteOf b k := by cases g <;> cases b <;> rfl

end Sys2Proof.Machine
end

