-- ==== Sys2Proof/Laws/Header.lean ====
section
/-! SUPPORT. Field assembly and the header functions: what they can answer. -/

namespace Sys2Proof

/-! ### Fields (R50, R51) -/

theorem toNat_le16 (b0 b1 : Byte) : (le16 b0 b1).toNat = b0.toNat + 256 * b1.toNat := by
  have h0 := b0.isLt
  rw [le16, BitVec.toNat_append, Nat.shiftLeft_eq, Nat.mul_comm, ← Nat.two_pow_add_eq_or_of_lt h0]
  omega

theorem toNat_loByte (h : Half) : (loByte h).toNat = h.toNat % 256 := by
  simp [loByte, BitVec.extractLsb'_toNat]

theorem toNat_hiByte (h : Half) : (hiByte h).toNat = h.toNat / 256 := by
  have := h.isLt
  simp only [hiByte, BitVec.extractLsb'_toNat, Nat.shiftRight_eq_div_pow]
  omega

theorem toNat_headerType (h : Half) : (headerType h).toNat = h.toNat / 8192 := by
  have := h.isLt
  simp only [headerType, BitVec.extractLsb'_toNat, Nat.shiftRight_eq_div_pow]
  omega

theorem toNat_headerLenf (h : Half) : (headerLenf h).toNat = h.toNat % 8192 := by
  simp [headerLenf, BitVec.extractLsb'_toNat]

theorem toNat_mkHeader (t : FrameType) (lenf : LenField) :
    (mkHeader t lenf).toNat = t.toNat * 8192 + lenf.toNat := by
  have h0 := lenf.isLt
  rw [mkHeader, BitVec.toNat_append, Nat.shiftLeft_eq, Nat.mul_comm, ← Nat.two_pow_add_eq_or_of_lt h0,
    Nat.mul_comm]

/-- The bytes of a 16-bit field give it back. -/
@[simp] theorem le16_lo_hi (h : Half) : le16 (loByte h) (hiByte h) = h := by
  apply BitVec.eq_of_toNat_eq
  rw [toNat_le16, toNat_loByte, toNat_hiByte]
  omega

@[simp] theorem loByte_le16 (b0 b1 : Byte) : loByte (le16 b0 b1) = b0 := by
  have := b0.isLt
  apply BitVec.eq_of_toNat_eq
  rw [toNat_loByte, toNat_le16]
  omega

@[simp] theorem hiByte_le16 (b0 b1 : Byte) : hiByte (le16 b0 b1) = b1 := by
  have := b0.isLt
  apply BitVec.eq_of_toNat_eq
  rw [toNat_hiByte, toNat_le16]
  omega

@[simp] theorem headerType_mkHeader (t : FrameType) (lenf : LenField) : headerType (mkHeader t lenf) = t := by
  have := lenf.isLt
  apply BitVec.eq_of_toNat_eq
  rw [toNat_headerType, toNat_mkHeader]
  omega

@[simp] theorem headerLenf_mkHeader (t : FrameType) (lenf : LenField) :
    headerLenf (mkHeader t lenf) = lenf := by
  have := lenf.isLt
  apply BitVec.eq_of_toNat_eq
  rw [toNat_headerLenf, toNat_mkHeader]
  omega

@[simp] theorem mkHeader_fields (h : Half) : mkHeader (headerType h) (headerLenf h) = h := by
  apply BitVec.eq_of_toNat_eq
  rw [toNat_mkHeader, toNat_headerType, toNat_headerLenf]
  omega

/-- The HDR16 row of a type and a length field has these fields (R57). -/
@[simp] theorem headerFields_headerRow (t : FrameType) (lenf : LenField) :
    (headerRow t lenf).headerFields = some (t, lenf) := by
  revert t
  rw [show (∀ t : FrameType, (headerRow t lenf).headerFields = some (t, lenf)) ↔
      ∀ k : Fin 8, (headerRow (BitVec.ofFin k) lenf).headerFields = some (BitVec.ofFin k, lenf) from
    ⟨fun h k => h _, fun h t => h t.toFin⟩]
  intro k
  fin_cases k <;> rfl

/-- An instruction with header fields is the row of these fields. -/
theorem eq_headerRow_of_headerFields (i : Instr) (t : FrameType) (lenf : LenField)
    (h : i.headerFields = some (t, lenf)) : i = headerRow t lenf := by
  cases i <;> simp only [Instr.headerFields, Option.some.injEq, Prod.mk.injEq, reduceCtorEq] at h <;>
    (obtain ⟨rfl, rfl⟩ := h; rfl)

namespace Machine

/-- Everything `packHeader` can answer (R67). -/
theorem packHeader_cases (cfg : Config) (t : FrameType) (total : Nat) :
    (2 ≤ total ∧ total = cfg.cap ∧ isData cfg t = true ∧ packHeader cfg t total = .ok (mkHeader t 0)) ∨
    (2 ≤ total ∧ total ≤ cfg.cap ∧ total ≤ 8191 ∧ ¬ (total = cfg.cap ∧ isData cfg t = true) ∧
      packHeader cfg t total = .ok (mkHeader t (BitVec.ofNat 13 total))) ∨
    ((total < 2 ∨ cfg.cap < total ∨ 8191 < total ∧ ¬ (total = cfg.cap ∧ isData cfg t = true)) ∧
      packHeader cfg t total = .err .framing) := by
  unfold packHeader Config.lenfMax
  split
  · right; right; exact ⟨by omega, rfl⟩
  · split
    · left; exact ⟨by omega, by tauto, by tauto, rfl⟩
    · split
      · right; left; exact ⟨by omega, by omega, by omega, by assumption, rfl⟩
      · right; right; exact ⟨.inr (.inr ⟨by omega, by assumption⟩), rfl⟩

/-- Everything `declaredLength` can answer (R68). -/
theorem declaredLength_cases (cfg : Config) (t : FrameType) (lenf : LenField) :
    (lenf = 0 ∧ isData cfg t = true ∧ 2 ≤ cfg.cap ∧ declaredLength cfg t lenf = .ok cfg.cap) ∨
    (2 ≤ lenf.toNat ∧ lenf.toNat ≤ cfg.cap ∧ declaredLength cfg t lenf = .ok lenf.toNat) ∨
    ((lenf = 0 ∧ (isData cfg t = false ∨ cfg.cap < 2) ∨ lenf = 1 ∨ cfg.cap < lenf.toNat) ∧
      declaredLength cfg t lenf = .err .framing) := by
  unfold declaredLength announcedLength
  by_cases h0 : lenf = 0
  · by_cases hd : isData cfg t = true
    · by_cases hc : cfg.cap < 2 <;> simp [h0, hd, hc]
      omega
    · simp [h0, hd]
  · have h1 : lenf.toNat ≠ 0 := fun h => h0 (BitVec.eq_of_toNat_eq h)
    by_cases hb : lenf.toNat < 2 ∨ cfg.cap < lenf.toNat
    · right; right
      refine ⟨?_, by rw [if_neg h0]; exact if_pos hb⟩
      rcases hb with hb | hb
      · right; left; exact BitVec.eq_of_toNat_eq (by simp; omega)
      · right; right; exact hb
    · right; left
      exact ⟨by omega, by omega, by rw [if_neg h0]; exact if_neg hb⟩

/-- What a legal declared length is: 2 to CAP (R61). -/
theorem declaredLength_bounds (cfg : Config) (t : FrameType) (lenf : LenField) (d : Nat)
    (h : declaredLength cfg t lenf = .ok d) : 2 ≤ d ∧ d ≤ cfg.cap := by
  rcases declaredLength_cases cfg t lenf with ⟨_, _, hc, e⟩ | ⟨h2, hc, e⟩ | ⟨_, e⟩ <;> rw [e] at h
  · cases h; exact ⟨hc, le_rfl⟩
  · cases h; exact ⟨h2, hc⟩
  · cases h

/-- The header functions fail with FramingError and nothing else (R105). -/
theorem declaredLength_err (cfg : Config) (t : FrameType) (lenf : LenField) (e : ErrorKind)
    (h : declaredLength cfg t lenf = .err e) : e = .framing := by
  rcases declaredLength_cases cfg t lenf with ⟨_, _, _, e'⟩ | ⟨_, _, e'⟩ | ⟨_, e'⟩ <;> rw [e'] at h <;> cases h
  rfl

theorem packHeader_err (cfg : Config) (t : FrameType) (total : Nat) (e : ErrorKind)
    (h : packHeader cfg t total = .err e) : e = .framing := by
  rcases packHeader_cases cfg t total with ⟨_, _, _, e'⟩ | ⟨_, _, _, _, e'⟩ | ⟨_, e'⟩ <;> rw [e'] at h <;> cases h
  rfl

theorem packHeader_bounds (cfg : Config) (t : FrameType) (total : Nat) (hdr : Half)
    (h : packHeader cfg t total = .ok hdr) : 2 ≤ total ∧ total ≤ cfg.cap := by
  rcases packHeader_cases cfg t total with ⟨h2, hc, _, _⟩ | ⟨h2, hc, _, _, _⟩ | ⟨_, e⟩
  · omega
  · omega
  · rw [e] at h; cases h

/-- `unpackHeader` in terms of the fields of the header (R68). -/
theorem unpackHeader_eq (cfg : Config) (hdr : Half) (t : FrameType) (d : Nat) :
    unpackHeader cfg hdr = .ok (t, d) ↔ headerType hdr = t ∧ declaredLength cfg t (headerLenf hdr) = .ok d := by
  unfold unpackHeader
  constructor
  · intro h
    split at h
    · rename_i declared e
      cases h
      exact ⟨rfl, e⟩
    · cases h
  · rintro ⟨rfl, e⟩
    rw [e]

end Machine

end Sys2Proof
end

