-- ==== Sys2Proof/Laws/Frame.lean ====
section
/-! SUPPORT. The frame functions: what they can answer, and the writes of ENC and DEC. -/

namespace Sys2Proof.Machine

/-- Everything step (7) can answer (R82, R83). -/
theorem decodeVariant_cases (cfg : Config) (t : FrameType) (d : Nat) (code : Half) (body : List Byte) :
    (isData cfg t = true ∧ decodeVariant cfg t d code body = .ok ⟨t, d, none, some code, body⟩) ∨
    (isData cfg t = false ∧ isItem cfg code = true ∧
      decodeVariant cfg t d code body = .ok ⟨t, d, some code, none, body⟩) ∨
    (isData cfg t = false ∧ isItem cfg code = false ∧
      decodeVariant cfg t d code body = .err .unknownItemCode) := by
  unfold decodeVariant
  by_cases hd : isData cfg t = true
  · simp [hd]
  · by_cases hi : isItem cfg code = true <;> simp [hd, hi]

/-- Everything steps (3) to (7) can answer: FramingError, or step (7) on the code and the body after it
(R79). -/
theorem decodeHeaded_cases (cfg : Config) (t : FrameType) (lenf : LenField) (n : Nat) (rest : List Byte) :
    decodeHeaded cfg t lenf n rest = .err .framing ∨
    ∃ c0 c1 body, rest = c0 :: c1 :: body ∧ declaredLength cfg t lenf = .ok n ∧
      decodeHeaded cfg t lenf n rest = decodeVariant cfg t n (le16 c0 c1) body := by
  unfold decodeHeaded
  cases e : declaredLength cfg t lenf with
  | err k => left; rw [declaredLength_err cfg t lenf k e]
  | ok d =>
    by_cases h : d = n
    · subst h
      match rest with
      | [] => left; simp
      | [_] => left; simp
      | c0 :: c1 :: body => right; exact ⟨c0, c1, body, rfl, rfl, by simp⟩
    · left; simp [h]

/-- Steps (3) to (7) past the framing checks. -/
theorem decodeHeaded_of_declared (cfg : Config) (t : FrameType) (lenf : LenField) (n : Nat) (c0 c1 : Byte)
    (body : List Byte) (h : declaredLength cfg t lenf = .ok n) :
    decodeHeaded cfg t lenf n (c0 :: c1 :: body) = decodeVariant cfg t n (le16 c0 c1) body := by
  simp [decodeHeaded, h]

/-- A declared length that is not the byte count is a FramingError (step 4). -/
theorem decodeHeaded_of_ne (cfg : Config) (t : FrameType) (lenf : LenField) (n : Nat) (rest : List Byte)
    (h : declaredLength cfg t lenf ≠ .ok n) : decodeHeaded cfg t lenf n rest = .err .framing := by
  rcases decodeHeaded_cases cfg t lenf n rest with e | ⟨_, _, _, _, e, _⟩
  · exact e
  · exact absurd e h

/-- Everything `decodeFrame` can answer (R79). -/
theorem decodeFrame_cases (cfg : Config) (msg : List Byte) :
    decodeFrame cfg msg = .err .framing ∨
    ∃ b0 b1 c0 c1 body, msg = b0 :: b1 :: c0 :: c1 :: body ∧
      declaredLength cfg (headerType (le16 b0 b1)) (headerLenf (le16 b0 b1)) = .ok (body.length + 4) ∧
      decodeFrame cfg msg =
        decodeVariant cfg (headerType (le16 b0 b1)) (body.length + 4) (le16 c0 c1) body := by
  match msg with
  | [] => exact .inl rfl
  | [_] => exact .inl rfl
  | b0 :: b1 :: rest =>
    rcases decodeHeaded_cases cfg (headerType (le16 b0 b1)) (headerLenf (le16 b0 b1)) (rest.length + 2) rest
      with e | ⟨c0, c1, body, rfl, hd, e⟩
    · exact .inl e
    · exact .inr ⟨b0, b1, c0, c1, body, rfl, hd, e⟩

/-- `encodeFrame` past the length check (R75). -/
theorem encodeFrame_of_ok (cfg : Config) (t : FrameType) (code hdr : Half) (payload : List Byte)
    (h : packHeader cfg t (4 + payload.length) = .ok hdr) :
    encodeFrame cfg t code payload =
      .ok (loByte hdr :: hiByte hdr :: loByte code :: hiByte code :: payload) := by
  simp [encodeFrame, h]

theorem encodeFrame_of_err (cfg : Config) (t : FrameType) (code : Half) (payload : List Byte) (e : ErrorKind)
    (h : packHeader cfg t (4 + payload.length) = .err e) : encodeFrame cfg t code payload = .err e := by
  simp [encodeFrame, h]

/-- What the writes of a successful DEC leave in each byte (R81). -/
theorem State.finishDec_ok_byteOf (s : State) (f : DecodedFrame) (b : Buf) (k : Nat) :
    (s.finishDec (.ok f)).byteOf b k =
      if b = .bbuf ∧ k < f.body.length then (f.body[k]?).getD 0 else s.byteOf b k := by
  unfold State.finishDec
  rw [State.setStatus_byteOf, State.byteOf_memWrite]
  simp only [Nat.zero_le, true_and, Nat.zero_add, Nat.sub_zero]
  split
  · rfl
  · cases b <;> rfl

/-- What the writes of a successful DEC leave in the registers (R81). -/
theorem State.finishDec_ok (s : State) (f : DecodedFrame) :
    s.finishDec (.ok f) = { s with
      rType := f.type, rLen := BitVec.ofNat 16 f.declared,
      rItem := optionValue f.item, rItemV := optionValid f.item,
      rSeq := optionValue f.seq, rSeqV := optionValid f.seq,
      bbuf := Memory.putAll s.bbuf 0 f.body, blen := BitVec.ofNat 16 f.body.length,
      sActive := 0, sStride := 0, sPos := 0, status := 0x01 } := by
  simp only [State.finishDec, State.memWrite, State.setMemory, State.memoryOf, State.endSequence,
    State.setStatus, statusSuccess_eq]

/-- What a failed DEC leaves (R107). -/
theorem State.finishDec_err (s : State) (e : ErrorKind) :
    s.finishDec (.err e) = { s with
      rType := 0, rLen := 0, rItem := 0, rItemV := 0, rSeq := 0, rSeqV := 0, blen := 0,
      sActive := 0, sStride := 0, sPos := 0, status := statusFailure e } := rfl

/-- The bytes of IBUF that DEC reads, taken apart: with `ILEN` at least 2 the header is bytes 0 and 1. -/
theorem State.memRead_ibuf_header (s : State) (n : Nat) :
    s.memRead .ibuf 0 (n + 2) = s.byteOf .ibuf 0 :: s.byteOf .ibuf 1 :: s.memRead .ibuf 2 n := rfl

/-- DEC is DEC on the header in IBUF (R81, R66). -/
theorem execDec_eq_decHeaded (s : State) (t : FrameType) (lenf : LenField)
    (h : le16 (s.byteOf .ibuf 0) (s.byteOf .ibuf 1) = mkHeader t lenf) :
    execDec s = .next (s.decHeaded t lenf) := by
  unfold execDec State.decHeaded
  congr 2
  by_cases hn : s.ilen.toNat < 2
  · have hd : declaredLength s.cfg t lenf ≠ .ok s.ilen.toNat := fun e => by
      have := declaredLength_bounds _ _ _ _ e
      omega
    rw [decodeHeaded_of_ne _ _ _ _ _ hd]
    rcases Nat.lt_or_ge s.ilen.toNat 1 with h0 | h1
    · rw [show s.ilen.toNat = 0 by omega]; rfl
    · rw [show s.ilen.toNat = 1 by omega]; rfl
  · obtain ⟨n, hn⟩ : ∃ n, s.ilen.toNat = n + 2 := ⟨s.ilen.toNat - 2, by omega⟩
    rw [hn, State.memRead_ibuf_header]
    simp [decodeFrame, h]

/-- The HDR16 rows are DEC on their own header. -/
theorem exec_of_headerFields (i : Instr) (s : State) (t : FrameType) (lenf : LenField)
    (h : i.headerFields = some (t, lenf)) : exec i s = .next (s.decHeaded t lenf) := by
  cases i <;> simp only [Instr.headerFields, Option.some.injEq, Prod.mk.injEq, reduceCtorEq] at h <;>
    (obtain ⟨rfl, rfl⟩ := h; rfl)

end Sys2Proof.Machine
end

