-- ==== Sys2Proof/Laws/Samples.lean ====
section
/-! SUPPORT. The sample decoder: strides, assembly, and starting a sequence. -/

namespace Sys2Proof.Machine

/-- Everything `strideOf` can answer (R91). -/
theorem strideOf_cases (w : Nat) :
    (∃ k, 1 ≤ k ∧ k ≤ 4 ∧ w = 8 * k ∧ strideOf w = .ok k) ∨
    (w ≠ 8 ∧ w ≠ 16 ∧ w ≠ 24 ∧ w ≠ 32 ∧ strideOf w = .err .unsupportedSampleWidth) := by
  unfold strideOf
  split
  · left; exact ⟨w / 8, by omega, by omega, by omega, rfl⟩
  · right; exact ⟨by omega, by omega, by omega, by omega, rfl⟩

theorem strideOf_ok (w k : Nat) (h : strideOf w = .ok k) : 1 ≤ k ∧ k ≤ 4 ∧ w = 8 * k := by
  rcases strideOf_cases w with ⟨j, h1, h4, hw, e⟩ | ⟨_, _, _, _, e⟩ <;> rw [e] at h <;> cases h
  exact ⟨h1, h4, hw⟩

/-- A sample's bytes sum to less than `2^(8 × stride)` (R10 e). -/
theorem littleEndian_lt (bytes : List Byte) : littleEndian bytes < 2 ^ (8 * bytes.length) := by
  induction bytes with
  | nil => simp [littleEndian]
  | cons b bs ih =>
    have hb := b.isLt
    have h : (2 : Nat) ^ (8 * (b :: bs).length) = 256 * 2 ^ (8 * bs.length) := by
      rw [List.length_cons, Nat.mul_add, Nat.pow_add]; omega
    rw [h, littleEndian]
    omega

/-- Everything starting a sequence can leave (R94). -/
theorem State.startSequence_cases (s : State) (w : Nat) :
    (∃ k, strideOf w = .ok k ∧ s.startSequence w =
      { s with sActive := 1, sStride := BitVec.ofNat 3 k, sPos := 0, rSample := 0, status := 0x01 }) ∨
    (strideOf w = .err .unsupportedSampleWidth ∧ s.startSequence w =
      { s with sActive := 0, sStride := 0, sPos := 0, rSample := 0, status := 0x0C }) := by
  unfold State.startSequence
  rcases strideOf_cases w with ⟨k, _, _, _, e⟩ | ⟨_, _, _, _, e⟩
  · left; exact ⟨k, e, by rw [e]; rfl⟩
  · right; exact ⟨e, by rw [e]; rfl⟩

/-- The length of `getSamples` is `floor(len(body) / stride)` (R92). -/
theorem length_of_getSamples (cfg : Config) (w : Nat) (body : List Byte) (es : List Int)
    (h : getSamples cfg w body = .ok es) : ∃ k, strideOf w = .ok k ∧ es.length = body.length / k := by
  unfold getSamples at h
  split at h
  · rename_i k e
    cases h
    exact ⟨k, e, by simp⟩
  · cases h

end Sys2Proof.Machine
end

