-- ==== Sys2Proof/Laws/Exec.lean ====
section
/-! SUPPORT. What an instruction can leave, said once: the one inversion lemma of `exec`. A proof about every
instruction takes its cases from here and unfolds no meaning. -/

namespace Sys2Proof.Machine

/-- Everything DEC on a header with fields `t` and `lenf` can leave (R79, R81): the success writes, with what
the frame then is, or the failure writes. -/
theorem State.decHeaded_cases (s : State) (t : FrameType) (lenf : LenField) :
    (∃ f : DecodedFrame, s.decHeaded t lenf = s.finishDec (.ok f) ∧
      f.type = t ∧ f.declared = s.ilen.toNat ∧ f.body = s.memRead .ibuf 4 (s.ilen.toNat - 4) ∧
      4 ≤ s.ilen.toNat ∧ s.ilen.toNat ≤ s.cfg.cap ∧
      declaredLength s.cfg t lenf = .ok s.ilen.toNat ∧
      ((isData s.cfg t = true ∧ f.item = none ∧ f.seq = some (le16 (s.byteOf .ibuf 2) (s.byteOf .ibuf 3))) ∨
        (isData s.cfg t = false ∧ isItem s.cfg (le16 (s.byteOf .ibuf 2) (s.byteOf .ibuf 3)) = true ∧
          f.item = some (le16 (s.byteOf .ibuf 2) (s.byteOf .ibuf 3)) ∧ f.seq = none))) ∨
    (∃ e, s.decHeaded t lenf = s.finishDec (.err e) ∧ (e = .framing ∨ e = .unknownItemCode)) := by
  unfold State.decHeaded
  rcases decodeHeaded_cases s.cfg t lenf s.ilen.toNat (s.memRead .ibuf 2 (s.ilen.toNat - 2))
    with e | ⟨c0, c1, body, hr, hd, e⟩
  · exact .inr ⟨.framing, by rw [e], .inl rfl⟩
  · have hlen := congrArg List.length hr
    simp only [State.length_memRead, List.length_cons] at hlen
    have hn : 4 ≤ s.ilen.toNat := by omega
    rw [show s.ilen.toNat - 2 = (s.ilen.toNat - 4) + 2 by omega] at hr
    obtain ⟨rfl, rfl, rfl⟩ :
        s.byteOf .ibuf 2 = c0 ∧ s.byteOf .ibuf 3 = c1 ∧ s.memRead .ibuf 4 (s.ilen.toNat - 4) = body := by
      simpa [State.memRead] using hr
    have hcap := (declaredLength_bounds _ _ _ _ hd).2
    rcases decodeVariant_cases s.cfg t s.ilen.toNat (le16 (s.byteOf .ibuf 2) (s.byteOf .ibuf 3))
      (s.memRead .ibuf 4 (s.ilen.toNat - 4)) with ⟨a, e'⟩ | ⟨a, b, e'⟩ | ⟨_, _, e'⟩
    · exact .inl ⟨_, by rw [e, e'], rfl, rfl, rfl, hn, hcap, hd, .inl ⟨a, rfl, rfl⟩⟩
    · exact .inl ⟨_, by rw [e, e'], rfl, rfl, rfl, hn, hcap, hd, .inr ⟨a, b, rfl, rfl⟩⟩
    · exact .inr ⟨.unknownItemCode, by rw [e, e'], .inr rfl⟩

/-- DEC is DEC on the header that stands in IBUF, in every state (R66, R81). -/
theorem exec_dec (s : State) :
    exec .dec s = .next (s.decHeaded (headerType (le16 (s.byteOf .ibuf 0) (s.byteOf .ibuf 1)))
      (headerLenf (le16 (s.byteOf .ibuf 0) (s.byteOf .ibuf 1)))) :=
  execDec_eq_decHeaded s _ _ (by simp)

/-- `ExecEffect s i t`: `t` is a state that instruction `i` can leave in state `s`, with the condition under which
it does. -/
inductive ExecEffect (s : State) : Instr → State → Prop where
  | hdrpackOk (hdr : Half) (h : packHeader s.cfg s.aType s.aLen.toNat = .ok hdr) :
    ExecEffect s .hdrpack { s with rHdr := hdr, status := 0x01 }
  | hdrpackErr (h : packHeader s.cfg s.aType s.aLen.toNat = .err .framing) :
    ExecEffect s .hdrpack { s with rHdr := 0, status := 0x04 }
  | hdrunpkOk (ty : FrameType) (d : Nat) (h : unpackHeader s.cfg s.aHdr = .ok (ty, d)) :
    ExecEffect s .hdrunpk { s with rType := ty, rLen := BitVec.ofNat 16 d, status := 0x01 }
  | hdrunpkErr (h : unpackHeader s.cfg s.aHdr = .err .framing) :
    ExecEffect s .hdrunpk { s with rType := 0, rLen := 0, status := 0x04 }
  | encOk (hdr : Half) (h : packHeader s.cfg s.aType (4 + s.ilen.toNat) = .ok hdr) :
    ExecEffect s .enc { s with
      obuf := Memory.putAll s.obuf 0
        ([loByte hdr, hiByte hdr, loByte s.aCode, hiByte s.aCode] ++ s.memRead .ibuf 0 s.ilen.toNat)
      olen := BitVec.ofNat 16 (4 + s.ilen.toNat)
      status := 0x01 }
  | encErr (h : packHeader s.cfg s.aType (4 + s.ilen.toNat) = .err .framing) :
    ExecEffect s .enc { s with olen := 0, status := 0x04 }
  | decHeaded (i : Instr) (ty : FrameType) (lenf : LenField)
      (h : i = .dec ∧ le16 (s.byteOf .ibuf 0) (s.byteOf .ibuf 1) = mkHeader ty lenf ∨
        i.headerFields = some (ty, lenf)) :
    ExecEffect s i (s.decHeaded ty lenf)
  | smpstartOk (k : Nat) (h : strideOf s.aWidth.toNat = .ok k) :
    ExecEffect s .smpstart { s with
      sActive := 1, sStride := BitVec.ofNat 3 k, sPos := 0, rSample := 0, status := 0x01 }
  | smpstartErr (h : strideOf s.aWidth.toNat = .err .unsupportedSampleWidth) :
    ExecEffect s .smpstart { s with sActive := 0, sStride := 0, sPos := 0, rSample := 0, status := 0x0C }
  | smpstartRow (i : Instr) (w : Byte) (k : Nat) (h : i.sampleWidth = some w) (hk : strideOf w.toNat = .ok k) :
    ExecEffect s i { s with
      aWidth := w, sActive := 1, sStride := BitVec.ofNat 3 k, sPos := 0, rSample := 0, status := 0x01 }
  | smpnextInactive (h : s.sActive = 0) :
    ExecEffect s .smpnext { s with rSample := 0, status := 0x1C }
  | smpnextSample (h : s.sActive ≠ 0) (hle : s.sPos.toNat + s.sStride.toNat ≤ s.blen.toNat) :
    ExecEffect s .smpnext { s with
      rSample := samplePattern s.cfg (s.memRead .bbuf s.sPos.toNat s.sStride.toNat)
      sPos := BitVec.ofNat 16 (s.sPos.toNat + s.sStride.toNat)
      status := 0x01 }
  | smpnextEnd (h : s.sActive ≠ 0) (hlt : s.blen.toNat < s.sPos.toNat + s.sStride.toNat) :
    ExecEffect s .smpnext { s with rSample := 0, status := 0x03 }
  | reserved (i : Instr) (h : i = .reserved6 ∨ i = .reserved7) : ExecEffect s i { s with status := 0x1C }

/-- Every instruction answers a next state, and it is one of those that `ExecEffect` lists. -/
theorem exec_effect (i : Instr) (s : State) : ∃ t, exec i s = .next t ∧ ExecEffect s i t := by
  have hdec : ∀ i ty lenf, i.headerFields = some (ty, lenf) → ∃ t, exec i s = .next t ∧ ExecEffect s i t :=
    fun i ty lenf h => ⟨_, exec_of_headerFields i s ty lenf h, .decHeaded i ty lenf (.inr h)⟩
  have hrow : ∀ i w k, i.sampleWidth = some w → strideOf w.toNat = .ok k →
      exec i s = .next ({ s with aWidth := w }.startSequence w.toNat) →
      ∃ t, exec i s = .next t ∧ ExecEffect s i t := fun i w k h hk e => by
    rcases State.startSequence_cases { s with aWidth := w } w.toNat with ⟨k', hk', e'⟩ | ⟨hk', _⟩
    · rw [e'] at e
      exact ⟨_, e, .smpstartRow i w k' h hk'⟩
    · rw [hk'] at hk; cases hk
  cases i
  case hdrpack =>
    cases h : packHeader s.cfg s.aType s.aLen.toNat with
    | ok hdr => exact ⟨_, by simp only [exec, execHdrpack, h]; rfl, .hdrpackOk hdr h⟩
    | err e =>
      obtain rfl := packHeader_err _ _ _ _ h
      exact ⟨_, by simp only [exec, execHdrpack, h]; rfl, .hdrpackErr h⟩
  case hdrunpk =>
    cases h : unpackHeader s.cfg s.aHdr with
    | ok p => exact ⟨_, by simp only [exec, execHdrunpk, h]; rfl, .hdrunpkOk p.1 p.2 h⟩
    | err e =>
      have he : e = .framing := by
        unfold unpackHeader at h
        split at h
        · cases h
        · rename_i e' hd
          cases h
          exact declaredLength_err _ _ _ _ hd
      subst he
      exact ⟨_, by simp only [exec, execHdrunpk, h]; rfl, .hdrunpkErr h⟩
  case enc =>
    have hl : (s.memRead .ibuf 0 s.ilen.toNat).length = s.ilen.toNat := State.length_memRead ..
    cases h : packHeader s.cfg s.aType (4 + s.ilen.toNat) with
    | ok hdr =>
      refine ⟨_, ?_, .encOk hdr h⟩
      simp only [exec, execEnc, encodeFrame_of_ok _ _ _ hdr (s.memRead .ibuf 0 s.ilen.toNat) (by rw [hl]; exact h)]
      simp [State.memWrite, State.setMemory, State.memoryOf, State.setStatus, Nat.add_comm 4]
    | err e =>
      obtain rfl := packHeader_err _ _ _ _ h
      refine ⟨_, ?_, .encErr h⟩
      simp only [exec, execEnc, encodeFrame_of_err _ _ _ (s.memRead .ibuf 0 s.ilen.toNat) .framing
        (by rw [hl]; exact h)]
      rfl
  case dec => exact ⟨_, exec_dec s, .decHeaded _ _ _ (.inl ⟨rfl, by simp⟩)⟩
  case smpstart =>
    rcases State.startSequence_cases s s.aWidth.toNat with ⟨k, h, e⟩ | ⟨h, e⟩
    · exact ⟨_, congrArg Host.Outcome.next e, .smpstartOk k h⟩
    · exact ⟨_, congrArg Host.Outcome.next e, .smpstartErr h⟩
  case smpnext =>
    by_cases h : s.sActive = 0
    · exact ⟨_, if_pos h, .smpnextInactive h⟩
    · by_cases hle : s.sPos.toNat + s.sStride.toNat ≤ s.blen.toNat
      · exact ⟨_, (if_neg h).trans (if_pos hle), .smpnextSample h hle⟩
      · exact ⟨_, (if_neg h).trans (if_neg hle), .smpnextEnd h (by omega)⟩
  case reserved6 => exact ⟨_, rfl, .reserved _ (.inl rfl)⟩
  case reserved7 => exact ⟨_, rfl, .reserved _ (.inr rfl)⟩
  case smpstartW8 => exact hrow _ 8 1 rfl (by decide) rfl
  case smpstartW16 => exact hrow _ 16 2 rfl (by decide) rfl
  case smpstartW24 => exact hrow _ 24 3 rfl (by decide) rfl
  case smpstartW32 => exact hrow _ 32 4 rfl (by decide) rfl
  all_goals exact hdec _ _ _ rfl

/-- The inversion of `exec`: when it answers `t`, `t` is one of the states `ExecEffect` lists. -/
theorem effect_of_exec (i : Instr) (s t : State) (h : exec i s = .next t) : ExecEffect s i t := by
  obtain ⟨u, hu, he⟩ := exec_effect i s
  rw [hu] at h
  cases h
  exact he

end Sys2Proof.Machine
end

