-- ==== Sys2Proof/Laws/PerInstr.lean ====
section
/-! SUPPORT. For every instruction: its word is one its own row of spec/opcode_table.json selects, that is
`word & mask = match` in the row's format (30_encoding.md R66). -/

namespace Sys2Proof.Laws.TableRow

/-- `match` and `mask` of a row, copied from the table, with the number of bits of its format. -/
structure Pattern where
  width : Nat
  bits : Nat
  mask : Nat

/-- The row of each instruction. -/
def pattern : Instr → Pattern
  | .hdrpack => ⟨3, 0x0, 0x7⟩
  | .hdrunpk => ⟨3, 0x1, 0x7⟩
  | .enc => ⟨3, 0x2, 0x7⟩
  | .dec => ⟨3, 0x3, 0x7⟩
  | .smpstart => ⟨3, 0x4, 0x7⟩
  | .smpnext => ⟨3, 0x5, 0x7⟩
  | .reserved6 => ⟨3, 0x6, 0x7⟩
  | .reserved7 => ⟨3, 0x7, 0x7⟩
  | .decT0 _ => ⟨16, 0x0000, 0xE000⟩
  | .decT1 _ => ⟨16, 0x2000, 0xE000⟩
  | .decT2 _ => ⟨16, 0x4000, 0xE000⟩
  | .decT3 _ => ⟨16, 0x6000, 0xE000⟩
  | .decT4 _ => ⟨16, 0x8000, 0xE000⟩
  | .decT5 _ => ⟨16, 0xA000, 0xE000⟩
  | .decT6 _ => ⟨16, 0xC000, 0xE000⟩
  | .decT7 _ => ⟨16, 0xE000, 0xE000⟩
  | .smpstartW8 => ⟨8, 0x08, 0xFF⟩
  | .smpstartW16 => ⟨8, 0x10, 0xFF⟩
  | .smpstartW24 => ⟨8, 0x18, 0xFF⟩
  | .smpstartW32 => ⟨8, 0x20, 0xFF⟩

/-- A word is selected by a pattern of its format. -/
def selects (p : Pattern) : TableWord → Prop
  | .cmd op => p.width = 3 ∧ op &&& BitVec.ofNat 3 p.mask = BitVec.ofNat 3 p.bits
  | .hdr16 hdr => p.width = 16 ∧ hdr &&& BitVec.ofNat 16 p.mask = BitVec.ofNat 16 p.bits
  | .width8 w => p.width = 8 ∧ w &&& BitVec.ofNat 8 p.mask = BitVec.ofNat 8 p.bits

/-- The word of the instruction is selected by its row. -/
def Statement (i : Instr) : Prop := selects (pattern i) (encode i)

/-- Masking a header with the type bits leaves the type. -/
theorem mkHeader_and_mask (t : FrameType) (lenf : LenField) :
    mkHeader t lenf &&& 0xE000#16 = mkHeader t 0 := by
  have h : (0xE000#16) = (7#3 ++ 0#13 : BitVec 16) := by decide
  rw [h]
  unfold mkHeader
  have h2 : ((t ++ lenf : BitVec 16) &&& (7#3 ++ 0#13 : BitVec 16)) = ((t &&& 7#3) ++ (lenf &&& 0#13) : BitVec 16) :=
    BitVec.and_append
  rw [h2, show (7#3) = BitVec.allOnes 3 by decide, BitVec.and_allOnes, BitVec.and_zero]
  rfl

theorem hdrpack : Statement .hdrpack := ⟨rfl, by decide⟩
theorem hdrunpk : Statement .hdrunpk := ⟨rfl, by decide⟩
theorem enc : Statement .enc := ⟨rfl, by decide⟩
theorem dec : Statement .dec := ⟨rfl, by decide⟩
theorem smpstart : Statement .smpstart := ⟨rfl, by decide⟩
theorem smpnext : Statement .smpnext := ⟨rfl, by decide⟩
theorem reserved6 : Statement .reserved6 := ⟨rfl, by decide⟩
theorem reserved7 : Statement .reserved7 := ⟨rfl, by decide⟩
theorem decT0 (lenf : LenField) : Statement (.decT0 lenf) :=
  ⟨rfl, (mkHeader_and_mask 0 lenf).trans (show mkHeader 0 0 = 0x0000#16 by decide)⟩
theorem decT1 (lenf : LenField) : Statement (.decT1 lenf) :=
  ⟨rfl, (mkHeader_and_mask 1 lenf).trans (show mkHeader 1 0 = 0x2000#16 by decide)⟩
theorem decT2 (lenf : LenField) : Statement (.decT2 lenf) :=
  ⟨rfl, (mkHeader_and_mask 2 lenf).trans (show mkHeader 2 0 = 0x4000#16 by decide)⟩
theorem decT3 (lenf : LenField) : Statement (.decT3 lenf) :=
  ⟨rfl, (mkHeader_and_mask 3 lenf).trans (show mkHeader 3 0 = 0x6000#16 by decide)⟩
theorem decT4 (lenf : LenField) : Statement (.decT4 lenf) :=
  ⟨rfl, (mkHeader_and_mask 4 lenf).trans (show mkHeader 4 0 = 0x8000#16 by decide)⟩
theorem decT5 (lenf : LenField) : Statement (.decT5 lenf) :=
  ⟨rfl, (mkHeader_and_mask 5 lenf).trans (show mkHeader 5 0 = 0xA000#16 by decide)⟩
theorem decT6 (lenf : LenField) : Statement (.decT6 lenf) :=
  ⟨rfl, (mkHeader_and_mask 6 lenf).trans (show mkHeader 6 0 = 0xC000#16 by decide)⟩
theorem decT7 (lenf : LenField) : Statement (.decT7 lenf) :=
  ⟨rfl, (mkHeader_and_mask 7 lenf).trans (show mkHeader 7 0 = 0xE000#16 by decide)⟩
theorem smpstartW8 : Statement .smpstartW8 := ⟨rfl, by decide⟩
theorem smpstartW16 : Statement .smpstartW16 := ⟨rfl, by decide⟩
theorem smpstartW24 : Statement .smpstartW24 := ⟨rfl, by decide⟩
theorem smpstartW32 : Statement .smpstartW32 := ⟨rfl, by decide⟩

end Sys2Proof.Laws.TableRow
end

