-- ==== Sys2Proof/Laws/Run.lean ====
section
/-! SUPPORT. The actions still pending influence no action, so a run of a list of host actions is the runs of its
parts one after the other. -/

namespace Sys2Proof.Machine

/-- Apply `f` to the next state of an outcome. -/
def mapNext (f : State → State) : Host.Outcome State Fault Refusal → Host.Outcome State Fault Refusal
  | .next s => .next (f s)
  | .fault r => .fault r
  | .refused r => .refused r

/-- Go on from the next state of an outcome. -/
def thenRun (o : Host.Outcome State Fault Refusal) (f : State → Host.Outcome State Fault Refusal) :
    Host.Outcome State Fault Refusal :=
  match o with
  | .next s => f s
  | .fault r => .fault r
  | .refused r => .refused r

/-- Put `p` in place of the pending actions. -/
def State.withPending (s : State) (p : List HostAction) : State := { s with pending := p }

@[simp] theorem State.withPending_byteOf (s : State) (p : List HostAction) (b : Buf) (k : Nat) :
    (s.withPending p).byteOf b k = s.byteOf b k := by cases b <;> rfl

@[simp] theorem State.withPending_memRead (s : State) (p : List HostAction) (b : Buf) (i n : Nat) :
    (s.withPending p).memRead b i n = s.memRead b i n :=
  State.memRead_congr _ _ _ _ _ _ _ fun _ _ => by simp

theorem State.withPending_finishDec (s : State) (p : List HostAction) (r : Result ErrorKind DecodedFrame) :
    (s.withPending p).finishDec r = (s.finishDec r).withPending p := by cases r <;> rfl

theorem State.withPending_decHeaded (s : State) (p : List HostAction) (t : FrameType) (lenf : LenField) :
    (s.withPending p).decHeaded t lenf = (s.decHeaded t lenf).withPending p := by
  unfold State.decHeaded
  rw [State.withPending_finishDec, State.withPending_memRead]
  rfl

theorem State.withPending_startSequence (s : State) (p : List HostAction) (w : Nat) :
    (s.withPending p).startSequence w = (s.startSequence w).withPending p := by
  unfold State.startSequence
  split <;> rfl

/-- No instruction looks at the pending actions or changes them. -/
theorem exec_withPending (i : Instr) (s : State) (p : List HostAction) :
    exec i (s.withPending p) = mapNext (·.withPending p) (exec i s) := by
  cases h : i.headerFields with
  | some f =>
    rw [exec_of_headerFields i _ f.1 f.2 h, exec_of_headerFields i _ f.1 f.2 h,
      State.withPending_decHeaded]
    rfl
  | none =>
    cases i <;> simp only [Instr.headerFields, reduceCtorEq] at h
    case hdrpack => simp only [exec, execHdrpack, State.withPending]; split <;> rfl
    case hdrunpk => simp only [exec, execHdrunpk, State.withPending]; split <;> rfl
    case enc =>
      simp only [exec, execEnc, State.withPending_memRead]
      simp only [State.withPending]
      split <;> rfl
    case dec =>
      simp only [exec, execDec, State.withPending_memRead, State.withPending_finishDec]
      rfl
    case smpnext =>
      simp only [exec, execSmpnext, State.withPending_memRead]
      simp only [State.withPending]
      by_cases h1 : s.sActive = 0
      · rw [if_pos h1]
        exact if_pos h1
      · rw [if_neg h1]
        refine (if_neg h1).trans ?_
        by_cases h2 : s.sPos.toNat + s.sStride.toNat ≤ s.blen.toNat
        · rw [if_pos h2]
          exact if_pos h2
        · rw [if_neg h2]
          exact if_neg h2
    case smpstart => simp only [exec, execSmpstart, State.withPending_startSequence]; rfl
    all_goals rfl

/-- No action of the host looks at the actions still pending or changes them. -/
theorem perform_withPending (a : HostAction) (s : State) (p : List HostAction) :
    perform (s.withPending p) a = mapNext (·.withPending p) (perform s a) := by
  cases a with
  | issue op =>
    have h : (s.withPending p).issuedRow op = s.issuedRow op := by
      simp only [State.issuedRow, State.withPending_byteOf]
      rfl
    simp only [perform, h, exec_withPending]
  | write r v => cases r <;> rfl
  | writeByte b k v => cases b <;> rfl
  | read r => rfl
  | readByte b k => rfl
  | reset => rfl

@[simp] theorem runScript_nil (s : State) : runScript [] s = .next (s.withPending []) := rfl

/-- The first action of a script, then the rest. -/
theorem runScript_cons (a : HostAction) (as : List HostAction) (s : State) :
    runScript (a :: as) s = thenRun (perform s a) (runScript as) := by
  have h : runScript (a :: as) s =
      thenRun (perform (s.withPending as) a) (Sys2Proof.core.run as.length) := by
    have hs : Sys2Proof.core.step { s with pending := a :: as } = perform (s.withPending as) a := rfl
    simp only [runScript, List.length_cons, Host.Core.run, hs]
    cases perform (s.withPending as) a <;> rfl
  rw [h, perform_withPending]
  cases perform s a <;> rfl

/-- A script's parts run one after the other. -/
theorem runScript_append (as bs : List HostAction) (s : State) :
    runScript (as ++ bs) s = thenRun (runScript as s) (runScript bs) := by
  induction as generalizing s with
  | nil =>
    have h : runScript bs (s.withPending []) = runScript bs s := rfl
    simp [thenRun, h]
  | cons a as ih =>
    rw [List.cons_append, runScript_cons, runScript_cons]
    cases perform s a with
    | next t => simp only [thenRun, ih]
    | fault r => rfl
    | refused r => rfl

/-- One issue of SMPNEXT is one `exec` of it, with nothing pending after it. -/
theorem step_issue_smpnext (s : State) :
    step { s with pending := [.issue 5] } = exec .smpnext (s.withPending []) := rfl

/-- The host goes on by `STATUS` alone. -/
theorem State.sampleProduced_eq (s : State) :
    s.sampleProduced = (statusOK s.status && !statusEOS s.status) := rfl

/-- The loop of GETSAMPLES with no sequence: BadCommand, and nothing is collected (R95, R65). -/
theorem collectSamples_inactive (budget : Nat) (s : State) (h : s.sActive = 0) :
    collectSamples (budget + 1) s = .next ([], { s with rSample := 0, status := 0x1C, pending := [] }) := by
  have e : exec .smpnext (s.withPending []) =
      .next { s with rSample := 0, status := 0x1C, pending := [] } := if_pos h
  rw [collectSamples, step_issue_smpnext, e]
  exact if_neg (by rw [State.sampleProduced_eq]; dsimp only; decide)

/-- The loop of GETSAMPLES at the end of the sequence: it stops (R95, R65). -/
theorem collectSamples_end (budget : Nat) (s : State) (h : s.sActive ≠ 0)
    (hlt : s.blen.toNat < s.sPos.toNat + s.sStride.toNat) :
    collectSamples (budget + 1) s = .next ([], { s with rSample := 0, status := 0x03, pending := [] }) := by
  have e : exec .smpnext (s.withPending []) =
      .next { s with rSample := 0, status := 0x03, pending := [] } :=
    (if_neg h).trans (if_neg (Nat.not_le.2 hlt))
  rw [collectSamples, step_issue_smpnext, e]
  exact if_neg (by rw [State.sampleProduced_eq]; dsimp only; decide)

/-- The loop of GETSAMPLES with a full stride left: the sample is collected and the loop goes on (R95, R65). -/
theorem collectSamples_sample (budget : Nat) (s : State) (h : s.sActive ≠ 0)
    (hle : s.sPos.toNat + s.sStride.toNat ≤ s.blen.toNat) :
    collectSamples (budget + 1) s =
      collectBefore (int32 (samplePattern s.cfg (s.memRead .bbuf s.sPos.toNat s.sStride.toNat)))
        (collectSamples budget { s with
          rSample := samplePattern s.cfg (s.memRead .bbuf s.sPos.toNat s.sStride.toNat)
          sPos := BitVec.ofNat 16 (s.sPos.toNat + s.sStride.toNat), status := 0x01, pending := [] }) := by
  have hm : (s.withPending []).memRead .bbuf s.sPos.toNat s.sStride.toNat =
      s.memRead .bbuf s.sPos.toNat s.sStride.toNat := State.withPending_memRead ..
  have e : exec .smpnext (s.withPending []) = .next { s with
      rSample := samplePattern s.cfg (s.memRead .bbuf s.sPos.toNat s.sStride.toNat)
      sPos := BitVec.ofNat 16 (s.sPos.toNat + s.sStride.toNat), status := 0x01, pending := [] } := by
    refine ((if_neg h).trans (if_pos hle)).trans ?_
    rw [← hm]
    rfl
  rw [collectSamples, step_issue_smpnext, e]
  exact if_pos (by rw [State.sampleProduced_eq]; dsimp only; decide)

end Sys2Proof.Machine
end

