-- ==== Sys2Proof/Tests/Slice0.lean ====
section
/-! SUPPORT. The model's own tests: ill-formed configurations refused, words written out from the encodings of
30_encoding.md, single instructions against the vectors of 95_test_vectors.md (their ids stand beside them), and
for each statement that has hypotheses a witness that meets them. -/

namespace Sys2Proof.Tests

open Sys2Proof Sys2Proof.Machine

/-! ### Helpers -/

/-- The state an instruction leaves. -/
def after (i : Instr) (s : State) : State :=
  match exec i s with
  | .next t => t
  | .fault _ | .refused _ => s

/-- The state a step leaves. -/
def afterStep (s : State) : State :=
  match step s with
  | .next t => t
  | .fault _ | .refused _ => s

/-- The reset state with these bytes in IBUF and their count in ILEN. -/
def withIbuf (bytes : List Byte) : State :=
  { State.reset.memWrite .ibuf 0 bytes with ilen := BitVec.ofNat 16 bytes.length }

/-- The reset state with these bytes in BBUF, and a sequence of this stride at this position. -/
def withBbuf (bytes : List Byte) (stride : BitVec 3) (pos : Half) : State :=
  { State.reset.memWrite .bbuf 0 bytes with
    blen := BitVec.ofNat 16 bytes.length, sActive := 1, sStride := stride, sPos := pos }

/-- The default parameters with another CAP. -/
def capped (cap : Nat) : Config := { Config.default with cap := cap }

/-- The default parameters with sign extension. -/
def signed : Config := { Config.default with signExtend := true }

/-- The frame of vector D1. -/
def controlFrame : State := withIbuf [0x0A, 0x00, 0x20, 0x00, 0x00, 0x40, 0x42, 0x0F, 0x00, 0x00]

/-- The frame of vector D2. -/
def dataFrame : State := withIbuf [0x08, 0x80, 0x34, 0x12, 0x01, 0x00, 0x02, 0x00]

/-- The frame of vector D8, with an unrecognised item code. -/
def unknownFrame : State := withIbuf [0x04, 0x20, 0x21, 0x00]

/-- A state in which the host is about to do one thing. -/
def about (a : HostAction) (s : State) : State := { s with pending := [a] }

/-- What GETSAMPLES collects from the reset state, and the STATUS it ends with. -/
def collected (w : Byte) (bytes : List Byte) : List Int × Byte :=
  match runGetSamples w bytes State.reset with
  | .next (es, t) => (es, t.status)
  | .fault _ | .refused _ => ([], 0)

/-! ### Well-formedness (R6) -/

theorem test_default_is_wellformed : Config.default.wf := by decide
theorem test_cap_below_two_is_refused : ¬ (capped 1).wf := by decide
theorem test_cap_above_half_is_refused : ¬ (capped 65536).wf := by decide
theorem test_cap_bounds_are_accepted : (capped 2).wf ∧ (capped 65535).wf := by decide
theorem test_repeated_item_is_refused : ¬ ({ Config.default with items := [0x0018, 0x0018] } : Config).wf := by
  decide

/-! ### Decoding: every constructor, by a word written out from R57, R58, R59 -/

theorem test_decode_commands :
    decodeBytes [0b00000000] = .ok .hdrpack ∧ decodeBytes [0b00000001] = .ok .hdrunpk ∧
    decodeBytes [0b00000010] = .ok .enc ∧ decodeBytes [0b00000011] = .ok .dec ∧
    decodeBytes [0b00000100] = .ok .smpstart ∧ decodeBytes [0b00000101] = .ok .smpnext ∧
    decodeBytes [0b00000110] = .ok .reserved6 ∧ decodeBytes [0b00000111] = .ok .reserved7 := by decide

/-- Byte 0 is `lenf[7:0]`, byte 1 is `type × 32 + lenf[12:8]` (R51). -/
theorem test_decode_headers :
    decodeBytes [0b00000100, 0b00000000] = .ok (.decT0 4) ∧
    decodeBytes [0b00000110, 0b00100000] = .ok (.decT1 6) ∧
    decodeBytes [0b00000000, 0b01010000] = .ok (.decT2 4096) ∧
    decodeBytes [0b11111111, 0b01111111] = .ok (.decT3 8191) ∧
    decodeBytes [0b00000000, 0b10000000] = .ok (.decT4 0) ∧
    decodeBytes [0b00000100, 0b10100000] = .ok (.decT5 4) ∧
    decodeBytes [0b00000001, 0b11000001] = .ok (.decT6 257) ∧
    decodeBytes [0b11111111, 0b11111111] = .ok (.decT7 8191) := by decide

theorem test_decode_widths :
    decodeBytes [0b00001000] = .ok .smpstartW8 ∧ decodeBytes [0b00010000] = .ok .smpstartW16 ∧
    decodeBytes [0b00011000] = .ok .smpstartW24 ∧ decodeBytes [0b00100000] = .ok .smpstartW32 := by decide

/-- The near misses of R62, and the lengths no row has. -/
theorem test_decode_refuses :
    decodeWidth 0 = .err .unsupportedWidth ∧ decodeWidth 4 = .err .unsupportedWidth ∧
    decodeWidth 12 = .err .unsupportedWidth ∧ decodeWidth 31 = .err .unsupportedWidth ∧
    decodeWidth 33 = .err .unsupportedWidth ∧ decodeWidth 40 = .err .unsupportedWidth ∧
    decodeWidth 64 = .err .unsupportedWidth ∧
    decodeBytes [] = .err .noBytes ∧ decodeBytes [0x28] = .err .neitherCommandNorWidth ∧
    decodeBytes [0x04, 0x00, 0x20] = .err .tooLong := by decide

/-- The `match` values of spec/opcode_table.json, with every operand bit 0. -/
theorem test_decode_table_words :
    [0, 1, 2, 3, 4, 5, 6, 7].map (decodeTableWord 8) =
      [some .hdrpack, some .hdrunpk, some .enc, some .dec, some .smpstart, some .smpnext, some .reserved6,
        some .reserved7] ∧
    [0x0000, 0x2000, 0x4000, 0x6000, 0x8000, 0xA000, 0xC000, 0xE000].map (decodeTableWord 16) =
      [some (.decT0 0), some (.decT1 0), some (.decT2 0), some (.decT3 0), some (.decT4 0), some (.decT5 0),
        some (.decT6 0), some (.decT7 0)] ∧
    [0x08, 0x10, 0x18, 0x20].map (decodeTableWord 8) =
      [some .smpstartW8, some .smpstartW16, some .smpstartW24, some .smpstartW32] := by decide

/-! ### Fetching: the very next step runs the placed word -/

theorem test_fetch_command : (afterStep (State.reset.withFetchWord 8 2)).olen = 4 := by decide
theorem test_fetch_header :
    (afterStep (State.reset.withFetchWord 16 0x8000)).status = 0x04 ∧
    (State.reset.withFetchWord 16 0x8000).issuedRow 3 = .decT4 0 := by decide
theorem test_fetch_width :
    (afterStep (State.reset.withFetchWord 8 24)).sStride = 3 ∧
    (afterStep (State.reset.withFetchWord 8 24)).status = 0x01 := by decide

/-! ### Instructions, from 95_test_vectors.md -/

/-- HP4. -/
theorem test_hdrpack_type_and_length :
    (after .hdrpack { State.reset with aType := 1, aLen := 6 }).rHdr = 0x2006 := by decide
/-- HP11, HP12: the sentinel for a data-bearing type only. -/
theorem test_hdrpack_sentinel :
    (after .hdrpack { State.reset with aType := 7, aLen := 8192 }).rHdr = 0xE000 ∧
    (after .hdrpack { State.reset with aType := 3, aLen := 8192 }).status = 0x04 := by decide
/-- HU5, HU10. -/
theorem test_hdrunpk_type_and_length :
    (after .hdrunpk { State.reset with aHdr := 0xA004 }).rType = 5 ∧
    (after .hdrunpk { State.reset with aHdr := 0x8000 }).rLen = 8192 := by decide
/-- HU12, HU16. -/
theorem test_hdrunpk_illegal_headers :
    (after .hdrunpk { State.reset with aHdr := 0x0000 }).status = 0x04 ∧
    (after .hdrunpk { State.reset with aHdr := 0x8001 }).status = 0x04 := by decide
/-- E2. -/
theorem test_enc_lays_out_the_frame :
    (after .enc { withIbuf [0x01, 0x00, 0x02, 0x00] with aType := 4, aCode := 0x1234 }).obuf =
      [(0, 0x08), (1, 0x80), (2, 0x34), (3, 0x12), (4, 0x01), (5, 0x00), (6, 0x02), (7, 0x00)] := by decide
/-- E12: no 16-bit wrap of the total. -/
theorem test_enc_total_does_not_wrap :
    (packHeader Config.default 5 (4 + 65535)) = .err .framing := by decide
/-- D1. -/
theorem test_dec_control_frame :
    (after .dec controlFrame).rItem = 0x0020 ∧ (after .dec controlFrame).rItemV = 1 ∧
    (after .dec controlFrame).bbuf = [(0, 0x00), (1, 0x40), (2, 0x42), (3, 0x0F), (4, 0x00), (5, 0x00)] := by
  decide
/-- D21: FramingError wins over UnknownItemCode. -/
theorem test_dec_first_error_wins :
    (after .dec (withIbuf [0x07, 0x00, 0x21, 0x00, 0xAA, 0xBB])).status = 0x04 ∧
    (after .dec unknownFrame).status = 0x08 := by decide
/-- D5: the item code None is recognised. -/
theorem test_decT0_item_none :
    (after (.decT0 4) (withIbuf [0x04, 0x00, 0x00, 0x00])).rItemV = 1 := by decide
/-- D3. -/
theorem test_decT1_empty_body :
    (after (.decT1 4) (withIbuf [0x04, 0x20, 0x44, 0x00])).rItem = 0x0044 := by decide
/-- The output of E4. -/
theorem test_decT2_body :
    (after (.decT2 9) (withIbuf [0x09, 0x40, 0xB8, 0x00, 0x00, 0x80, 0x1A, 0x06, 0x00])).blen = 5 := by decide
/-- D6. -/
theorem test_decT3_item :
    (after (.decT3 4) (withIbuf [0x04, 0x60, 0x8A, 0x00])).rItem = 0x008A := by decide
/-- D2. -/
theorem test_decT4_sequence_number :
    (after (.decT4 8) dataFrame).rSeq = 0x1234 ∧
    (after (.decT4 8) dataFrame).bbuf = [(0, 0x01), (1, 0x00), (2, 0x02), (3, 0x00)] := by decide
/-- D7: an unrecognised code is fine as a sequence number. -/
theorem test_decT5_any_sequence_number :
    (after (.decT5 4) (withIbuf [0x04, 0xA0, 0x21, 0x00])).rSeqV = 1 := by decide
/-- D19's form on type 6: the sentinel declares CAP, 4 bytes are there. -/
theorem test_decT6_sentinel_mismatch :
    (after (.decT6 0) (withIbuf [0x00, 0xC0, 0x34, 0x12])).status = 0x04 := by decide
/-- D4. -/
theorem test_decT7_sequence_number :
    (after (.decT7 12) (withIbuf
      [0x0C, 0xE0, 0xFF, 0xFF, 0x80, 0xFF, 0xFF, 0x7F, 0xFF, 0xFF, 0xFF, 0xFF])).rSeq = 0xFFFF := by decide
/-- G14, S4. -/
theorem test_smpstart_width_40 :
    (after .smpstart { State.reset with aWidth := 40, rSample := 7 }).status = 0x0C ∧
    (after .smpstart { State.reset with aWidth := 40, rSample := 7 }).rSample = 0 := by decide
/-- I2. -/
theorem test_smpstart_width_16 :
    (after .smpstart { State.reset with aWidth := 16 }).sStride = 2 := by decide
/-- G4, second sample, under both extensions. -/
theorem test_smpnext_extension :
    (after .smpnext (withBbuf [0x56, 0x34, 0x12, 0xFF, 0xFF, 0xFF, 0x01] 3 3)).rSample = 0x00FFFFFF ∧
    (after .smpnext { withBbuf [0x56, 0x34, 0x12, 0xFF, 0xFF, 0xFF, 0x01] 3 3 with cfg := signed }).rSample =
      0xFFFFFFFF := by decide
/-- G4, the dropped byte; I1. -/
theorem test_smpnext_end_and_inactive :
    (after .smpnext (withBbuf [0x56, 0x34, 0x12, 0xFF, 0xFF, 0xFF, 0x01] 3 6)).status = 0x03 ∧
    (after .smpnext State.reset).status = 0x1C := by decide
/-- X1, X2. -/
theorem test_reserved_codes :
    after .reserved6 dataFrame = { dataFrame with status := 0x1C } ∧
    after .reserved7 dataFrame = { dataFrame with status := 0x1C } := by decide
/-- R59, R65. -/
theorem test_smpstart_rows :
    (after .smpstartW8 State.reset).sStride = 1 ∧ (after .smpstartW16 State.reset).sStride = 2 ∧
    (after .smpstartW24 State.reset).sStride = 3 ∧ (after .smpstartW32 State.reset).sStride = 4 ∧
    (after .smpstartW32 State.reset).aWidth = 32 := by decide
/-- 2.2 of the vectors, last lines: `CAP = 8194`. -/
theorem test_cap_8194 :
    packHeader (capped 8194) 4 8194 = .ok 0x8000 ∧ packHeader (capped 8194) 4 8192 = .err .framing ∧
    packHeader (capped 8194) 0 8191 = .ok 0x1FFF ∧ packHeader (capped 8194) 0 8194 = .err .framing ∧
    unpackHeader (capped 8194) 0x8000 = .ok (4, 8194) := by decide
/-- G4: the loop of GETSAMPLES collects two samples of 24 bits, drops a byte and stops at the end. -/
theorem test_getsamples_collects :
    collected 24 [0x56, 0x34, 0x12, 0xFF, 0xFF, 0xFF, 0x01] = ([1193046, 16777215], 0x03) := by decide
/-- S4: nothing is collected; the SMPNEXT after the refused width is BadCommand. -/
theorem test_getsamples_refused_width : collected 40 [0x01] = ([], 0x1C) := by decide
/-- I4: the same byte written again still ends the sequence. -/
theorem test_host_write_ends_the_sequence :
    (afterStep { withBbuf [0x01, 0x00] 2 0 with pending := [.writeByte .bbuf 0 0x01] }).sActive = 0 := by decide

/-! ### Witnesses: the hypotheses of each statement can be met -/

theorem witness_NoTwoRowsShareAWord :
    decodeWord (.width8 0x20) = .ok .smpstartW32 ∧ encode (.decT0 0) = encode (.decT0 0) ∧
    encodeBytes (.decT0 0) = encodeBytes (.decT0 0) := by decide

theorem witness_FourOf256WidthsHaveARow :
    (0x20 : Byte) ∈ ([0x08, 0x10, 0x18, 0x20] : List Byte) ∧
    (0x21 : Byte) ∉ ([0x08, 0x10, 0x18, 0x20] : List Byte) := by decide

theorem witness_StepRunsTheIssuedRow :
    ({ State.reset with pending := [.issue 7] } : State).pending = .issue 7 :: [] ∧
    (({ withIbuf [0x00, 0x80] with pending := [.issue 3] } : State).pending = .issue 3 :: [] ∧
      2 ≤ (withIbuf [0x00, 0x80]).ilen.toNat) ∧
    (({ withIbuf [0x00] with pending := [.issue 3] } : State).pending = .issue 3 :: [] ∧
      (withIbuf [0x00]).ilen.toNat < 2) ∧
    (({ State.reset with aWidth := 32, pending := [.issue 4] } : State).pending = .issue 4 :: [] ∧
      decodeWord (.width8 32) = .ok .smpstartW32) ∧
    (({ State.reset with aWidth := 33, pending := [.issue 4] } : State).pending = .issue 4 :: [] ∧
      decodeWord (.width8 33) = .err .unsupportedWidth) := by decide

/-- One pending action per clause, registers at their largest value, buffers at their last index. -/
theorem witness_StepPerformsHostAccesses :
    (∀ a ∈ ([.write .aType 7, .write .aLen 65535, .write .aHdr 65535, .write .aCode 65535, .write .aWidth 255,
      .write .ilen 65535, .write .blen 65535, .write .status 255, .read .rSample, .readByte .obuf 65534,
      .writeByte .obuf 65534 255, .writeByte .ibuf 65534 255, .writeByte .bbuf 65534 255] : List HostAction),
      ({ State.reset with pending := [a] } : State).pending = a :: []) ∧
    State.reset.pending = [] := by decide

theorem witness_LoadingABufferStoresTheBytes :
    ([] : List Byte).length ≤ Config.nmax ∧ (List.replicate 65535 (0 : Byte)).length ≤ Config.nmax :=
  ⟨by decide, by rw [List.length_replicate]; decide⟩

theorem witness_ResetLeavesTheResetValues :
    (about .reset dataFrame).pending = .reset :: [] := rfl

theorem witness_ParametersNeverChange :
    ∃ t, step (about (.issue 3) dataFrame) = .next t := ⟨_, rfl⟩

theorem witness_UnwrittenBytesKeepTheirDraw :
    step (about (.issue 3) dataFrame) = .next (afterStep (about (.issue 3) dataFrame)) ∧
    (∀ rest, (about (.issue 3) dataFrame).pending ≠ .reset :: rest) ∧
    Memory.byteAt ((afterStep (about (.issue 3) dataFrame)).memoryOf .bbuf) 4 = none ∧
    (about .reset dataFrame).pending = .reset :: [] ∧
    step (about .reset dataFrame) = .next (afterStep (about .reset dataFrame)) :=
  ⟨rfl, fun _ h => by simp [about] at h, by decide, rfl, rfl⟩

/-- The clauses of HDRPACK at the bounds of each range, CAP 8192. -/
theorem witness_HdrpackPacksTheHeader :
    ((1 : Half).toNat < 2) ∧ (Config.default.cap < (8193 : Half).toNat) ∧
    ((8192 : Half).toNat = Config.default.cap ∧ isData Config.default 4 = true) ∧
    (2 ≤ (8191 : Half).toNat ∧ (8191 : Half).toNat ≤ Config.default.cap ∧ (8191 : Half).toNat ≤ 8191 ∧
      ¬ ((8191 : Half).toNat = Config.default.cap ∧ isData Config.default 4 = true)) ∧
    (8191 < (8192 : Half).toNat ∧ ¬ ((8192 : Half).toNat = Config.default.cap ∧ isData Config.default 3 = true)) := by
  decide

/-- The clauses of HDRUNPK at the bounds of each range: CAP 8192, and CAP 8190 for a length above CAP. -/
theorem witness_HdrunpkUnpacksTheHeader :
    State.reset.cfg.wf ∧
    (0x8000 % 8192 = 0 ∧ isData Config.default (BitVec.ofNat 3 (0x8000 / 8192)) = true) ∧
    (2 ≤ 0x0002 % 8192 ∧ 0x1FFF % 8192 ≤ Config.default.cap) ∧
    (0x6000 % 8192 = 0 ∧ isData Config.default (BitVec.ofNat 3 (0x6000 / 8192)) = false) ∧
    0x8001 % 8192 = 1 ∧ ((capped 8190).wf ∧ (capped 8190).cap < 0x1FFF % 8192) := by decide

theorem witness_UnpackRecoversWhatPackWrote :
    Config.default.wf ∧ packHeader Config.default 7 8192 = .ok 0xE000 := by decide

/-- The plain case, the one exceptional case at CAP 8191, and a CAP of at least 8192. -/
theorem witness_PackRecoversWhatUnpackRead :
    (Config.default.wf ∧ unpackHeader Config.default 0x1FFF = .ok (0, 8191) ∧
      ¬ (Config.default.cap ≤ 8191 ∧ isData Config.default 0 = true ∧
        (headerLenf 0x1FFF).toNat = Config.default.cap)) ∧
    ((capped 8191).wf ∧ unpackHeader (capped 8191) 0x9FFF = .ok (4, 8191) ∧
      ((capped 8191).cap ≤ 8191 ∧ isData (capped 8191) 4 = true ∧ (headerLenf 0x9FFF).toNat = (capped 8191).cap)) ∧
    8192 ≤ Config.default.cap := by decide

theorem witness_EncodeFrameLaysOutTheFrame :
    ((capped 3).wf ∧ packHeader (capped 3) 0 (4 + ([] : List Byte).length) = .err .framing) ∧
    ((capped 4).wf ∧ packHeader (capped 4) 0 (4 + ([] : List Byte).length) = .ok 0x0004) := by decide

theorem witness_EncBuildsTheFrame :
    (State.reset.cfg.wf ∧ packHeader Config.default 4 (4 + (8188 : Half).toNat) = .ok 0x8000) ∧
    packHeader Config.default 0 (4 + (8188 : Half).toNat) = .err .framing := by decide

theorem witness_LongestPayloadThatEncodes :
    Config.default.wf ∧ encodeFrame Config.default 0 0x0020 [] = .ok [0x04, 0x00, 0x20, 0x00] := by decide

theorem witness_EncDoesNotCheckTheCode :
    Config.default.wf ∧ isData Config.default 0 = false ∧ isItem Config.default 0x9999 = false ∧
    encodeFrame Config.default 0 0x9999 [0x01] = .ok [0x05, 0x00, 0x99, 0x99, 0x01] := by decide

/-- For DEC and for the row of the frame's type. -/
theorem witness_DecOfAControlFrame :
    controlFrame.cfg.wf ∧ le16 (controlFrame.byteOf .ibuf 0) (controlFrame.byteOf .ibuf 1) = mkHeader 0 10 ∧
    (Instr.decT0 10).headerFields = some (0, 10) ∧ isData controlFrame.cfg 0 = false ∧
    (10 : LenField).toNat = controlFrame.ilen.toNat ∧ 4 ≤ controlFrame.ilen.toNat ∧
    controlFrame.ilen.toNat ≤ controlFrame.cfg.cap ∧
    isItem controlFrame.cfg (le16 (controlFrame.byteOf .ibuf 2) (controlFrame.byteOf .ibuf 3)) = true := by decide

/-- With a length field, and with the sentinel at CAP 8 on the same bytes but for the header. -/
theorem witness_DecOfADataFrame :
    (dataFrame.cfg.wf ∧ le16 (dataFrame.byteOf .ibuf 0) (dataFrame.byteOf .ibuf 1) = mkHeader 4 8 ∧
      isData dataFrame.cfg 4 = true ∧ (8 : LenField).toNat = dataFrame.ilen.toNat ∧
      4 ≤ dataFrame.ilen.toNat ∧ dataFrame.ilen.toNat ≤ dataFrame.cfg.cap) ∧
    ((capped 8).wf ∧ (Instr.decT4 0).headerFields = some (4, 0) ∧ isData (capped 8) 4 = true ∧
      dataFrame.ilen.toNat = (capped 8).cap) := by decide

/-- One witness for each cause, at its bound. -/
theorem witness_DecFailsOnMalformedFrames :
    ((Instr.decT0 3).headerFields = some (0, 3) ∧ (withIbuf [0x03, 0x00, 0x20]).ilen.toNat < 4) ∧
    ((Instr.decT3 0).headerFields = some (3, 0) ∧ isData Config.default 3 = false) ∧
    (Instr.decT4 1).headerFields = some (4, 1) ∧
    ((Instr.decT0 9).headerFields = some (0, 9) ∧ (capped 8).cap < (9 : LenField).toNat) ∧
    ((Instr.decT4 0).headerFields = some (4, 0) ∧ dataFrame.ilen.toNat ≠ Config.default.cap) ∧
    (le16 (dataFrame.byteOf .ibuf 0) (dataFrame.byteOf .ibuf 1) = mkHeader 4 8 ∧
      (8 : LenField).toNat ≠ (7 : Half).toNat) := by decide

theorem witness_UnknownItemCodeExactlyWhen :
    (∃ t, exec .dec unknownFrame = .next t ∧ t.status = 0x08) ∧
    (∃ t, exec .dec dataFrame = .next t ∧ t.status ≠ 0x08) := ⟨⟨_, rfl, by decide⟩, ⟨_, rfl, by decide⟩⟩

theorem witness_DecodeFrameRecoversWhatEncodeFrameBuilt :
    (Config.default.wf ∧ encodeFrame Config.default 1 0x0044 [] = .ok [0x04, 0x20, 0x44, 0x00] ∧
      isData Config.default 1 = false ∧ isItem Config.default 0x0044 = true) ∧
    (encodeFrame Config.default 4 0xBEEF [0xAA] = .ok [0x05, 0x80, 0xEF, 0xBE, 0xAA] ∧
      isData Config.default 4 = true) := by decide

/-- Both variants at the longest payload of each. -/
theorem witness_EncodeCopyDecodeRoundTrip :
    State.reset.cfg.wf ∧
    (4 + (List.replicate 8187 (0x55 : Byte)).length ≤ min State.reset.cfg.cap 8191 ∧
      isItem State.reset.cfg 0x0018 = true) ∧
    (4 + (List.replicate 8188 (0xAA : Byte)).length = State.reset.cfg.cap ∧ isData State.reset.cfg 4 = true) := by
  refine ⟨by decide, ⟨?_, by decide⟩, ⟨?_, by decide⟩⟩ <;> rw [List.length_replicate] <;> decide

theorem witness_LengthMismatchAlwaysFails :
    (unpackHeader Config.default (le16 0x08 0x80) = .ok (4, 8) ∧ 8 ≠ ([0x34, 0x12] : List Byte).length + 2) ∧
    ∃ f, decodeFrame Config.default [0x04, 0x20, 0x44, 0x00] = .ok f := ⟨by decide, ⟨_, rfl⟩⟩

theorem witness_UnrecognisedItemCodeFails :
    (unpackHeader Config.default (le16 0x04 0x20) = .ok (1, ([] : List Byte).length + 4) ∧
      isData Config.default 1 = false ∧ isItem Config.default (le16 0x21 0x00) = false) ∧
    (4 ≤ unknownFrame.ilen.toNat ∧
      unpackHeader unknownFrame.cfg (le16 (unknownFrame.byteOf .ibuf 0) (unknownFrame.byteOf .ibuf 1)) =
        .ok (1, unknownFrame.ilen.toNat) ∧
      isData unknownFrame.cfg 1 = false ∧
      isItem unknownFrame.cfg (le16 (unknownFrame.byteOf .ibuf 2) (unknownFrame.byteOf .ibuf 3)) = false) := by
  decide

/-- At CAP 8192, and the exceptional case at CAP 5. -/
theorem witness_EncodeFrameRecoversWhatDecodeFrameRead :
    (Config.default.wf ∧ 8192 ≤ Config.default.cap ∧
      ∃ f, decodeFrame Config.default [0x04, 0xA0, 0x21, 0x00] = .ok f) ∧
    ((capped 5).wf ∧ (capped 5).cap ≤ 8191 ∧ isData (capped 5) 5 = true ∧
      (headerLenf (le16 0x05 0xA0)).toNat = (capped 5).cap ∧
      decodeFrame (capped 5) [0x05, 0xA0, 0x21, 0x00, 0x07] = .ok ⟨5, 5, none, some 0x0021, [0x07]⟩) :=
  ⟨⟨by decide, by decide, ⟨_, rfl⟩⟩, by decide⟩

/-- The widths beside the legal ones. -/
theorem witness_StrideOnlyForTheFourWidths :
    (33 : Nat) ≠ 8 ∧ (33 : Nat) ≠ 16 ∧ (33 : Nat) ≠ 24 ∧ (33 : Nat) ≠ 32 := by decide

theorem witness_TrailingBytesAreDropped :
    strideOf 32 = .ok 4 ∧ ([1, 2, 3] : List Byte).length < 4 ∧ 4 ∣ ([1, 2, 3, 4] : List Byte).length := by decide

theorem witness_ElementKDependsOnItsOwnBytes :
    strideOf 24 = .ok 3 ∧ 3 ∣ ([1, 2, 3] : List Byte).length ∧ ([4, 5, 6] : List Byte).length = 3 := by decide

/-- The largest raw value of a narrow stride and of stride 4, under both parameters. -/
theorem witness_ExtensionOfNarrowSamples :
    (1 ≤ 3 ∧ 3 ≤ 4 ∧ 16777215 < 2 ^ (8 * 3) ∧ Config.default.signExtend = false) ∧
    (1 ≤ 4 ∧ 4 ≤ 4 ∧ 4294967295 < 2 ^ (8 * 4) ∧ signed.signExtend = true) := by decide

theorem witness_SmpstartStartsOrRefuses :
    (32 : Byte) ∈ ([8, 16, 24, 32] : List Byte) ∧ (33 : Byte) ∉ ([8, 16, 24, 32] : List Byte) := by decide

/-- No sequence; one byte too few; exactly one stride left, at each stride. -/
theorem witness_SmpnextProducesTheNextSample :
    State.reset.sActive = 0 ∧
    ((withBbuf [1, 2, 3] 4 0).sActive = 1 ∧
      (withBbuf [1, 2, 3] 4 0).blen.toNat < (withBbuf [1, 2, 3] 4 0).sPos.toNat + (4 : BitVec 3).toNat) ∧
    (∀ st ∈ ([1, 2, 3, 4] : List (BitVec 3)), (withBbuf [1, 2, 3, 4] st 0).sActive = 1 ∧
      (withBbuf [1, 2, 3, 4] st 0).sStride = st ∧
      (withBbuf [1, 2, 3, 4] st 0).sPos.toNat + st.toNat ≤ (withBbuf [1, 2, 3, 4] st 0).blen.toNat) := by decide

theorem witness_IteratorIsGetSamples :
    ([0x01, 0x00, 0x02] : List Byte).length ≤ Config.nmax ∧
    getSamples State.reset.cfg 16 [0x01, 0x00, 0x02] = .ok [1] ∧
    getSamples State.reset.cfg 40 [0x01, 0x00, 0x02] = .err .unsupportedSampleWidth := by decide

theorem witness_SequenceIsRestartable :
    ∃ t, exec .smpstart { State.reset with aWidth := 8 } = .next t ∧ t.pending = [] ∧
      ∃ u, runScript (List.replicate 2 (.issue 5)) t = .next u := ⟨_, rfl, rfl, ⟨_, rfl⟩⟩

theorem witness_ChangingTheBodyEndsTheSequence :
    (∃ k v, (HostAction.writeByte .bbuf 65534 0) = .writeByte .bbuf k v) ∧
    (∃ v, (HostAction.write .blen 0) = .write .blen v) ∧ (HostAction.issue 3) = .issue 3 ∧
    (HostAction.issue 4) ∉ ([.issue 3, .write .aWidth 8, .issue 5] : List HostAction) :=
  ⟨⟨_, _, rfl⟩, ⟨_, rfl⟩, rfl, by decide⟩

theorem witness_NoSampleOfAStaleBodyAfterAFailedDec :
    ∃ t, exec .dec unknownFrame = .next t ∧ statusOK t.status = false ∧ (32 : Byte) ∈ ([8, 16, 24, 32] : List Byte) :=
  ⟨_, rfl, by decide, by decide⟩

/-- Each command answers, with and without a FramingError. -/
theorem witness_FramingErrorExactlyWhen :
    State.reset.cfg.wf ∧
    (∀ i ∈ ([.hdrpack, .hdrunpk, .dec] : List Instr), exec i State.reset = .next (after i State.reset) ∧
      (after i State.reset).status = 0x04) ∧
    exec .enc dataFrame = .next (after .enc dataFrame) ∧ exec .dec dataFrame = .next (after .dec dataFrame) := by
  refine ⟨by decide, fun i hi => ?_, rfl, rfl⟩
  fin_cases hi <;> exact ⟨rfl, by decide⟩

theorem witness_UnsupportedSampleWidthExactlyWhen :
    exec .smpstart { State.reset with aWidth := 33 } = .next (after .smpstart { State.reset with aWidth := 33 }) ∧
    exec .smpstart { State.reset with aWidth := 32 } = .next (after .smpstart { State.reset with aWidth := 32 }) :=
  ⟨rfl, rfl⟩

theorem witness_BadCommandExactlyWhen :
    exec .smpnext State.reset = .next (after .smpnext State.reset) ∧
    exec .reserved6 State.reset = .next (after .reserved6 State.reset) ∧
    exec .enc State.reset = .next (after .enc State.reset) := ⟨rfl, rfl, rfl⟩

/-- Every row of the table of R107. -/
theorem witness_FailureClearsTheResultGroup :
    ∀ i ∈ ([.hdrpack, .hdrunpk, .dec, .decT1 4, .smpstart, .smpnext, .reserved6, .reserved7] : List Instr),
      exec i unknownFrame = .next (after i unknownFrame) ∧ statusOK (after i unknownFrame).status = false := by
  intro i hi
  fin_cases hi <;> exact ⟨rfl, by decide⟩

theorem witness_FailureClearsTheResultGroup_enc :
    exec .enc { dataFrame with cfg := capped 4 } = .next (after .enc { dataFrame with cfg := capped 4 }) ∧
    statusOK (after .enc { dataFrame with cfg := capped 4 }).status = false := ⟨rfl, by decide⟩

/-- Every kind of instruction answers, so each clause of these statements has a state that meets it. -/
theorem witness_StatusValueByCommand :
    ∀ i ∈ ([.hdrpack, .hdrunpk, .enc, .dec, .decT4 8, .smpstart, .smpstartW8, .smpnext, .reserved6] : List Instr),
      exec i dataFrame = .next (after i dataFrame) := by
  intro i hi
  fin_cases hi <;> rfl

theorem witness_StatusIsOverwrittenByEveryCommand :
    ∃ t, exec .smpnext (withBbuf [1] 2 0) = .next t ∧ statusEOS t.status = true := ⟨_, rfl, by decide⟩

theorem witness_ExactlyOneValidBitAfterDec :
    (∃ t, exec .dec controlFrame = .next t ∧ statusOK t.status = true ∧ isData controlFrame.cfg t.rType = false) ∧
    (∃ t, exec (.decT4 8) dataFrame = .next t ∧ statusOK t.status = true ∧ isData dataFrame.cfg t.rType = true) ∧
    (∃ t, exec .dec unknownFrame = .next t ∧ statusOK t.status = false) :=
  ⟨⟨_, rfl, by decide, by decide⟩, ⟨_, rfl, by decide, by decide⟩, ⟨_, rfl, by decide⟩⟩

theorem witness_HeaderCommandsFrame :
    exec .hdrpack dataFrame = .next (after .hdrpack dataFrame) ∧
    exec .hdrunpk dataFrame = .next (after .hdrunpk dataFrame) ∧
    exec .reserved7 dataFrame = .next (after .reserved7 dataFrame) := ⟨rfl, rfl, rfl⟩

/-- A byte outside the frame, after a successful ENC of 8 bytes and after a failed one. -/
theorem witness_EncFrame :
    (exec .enc dataFrame = .next (after .enc dataFrame) ∧ ¬ (12 < 4 + dataFrame.ilen.toNat)) ∧
    (exec .enc { dataFrame with cfg := capped 4 } = .next (after .enc { dataFrame with cfg := capped 4 }) ∧
      ¬ (statusOK (after .enc { dataFrame with cfg := capped 4 }).status = true)) :=
  ⟨⟨rfl, by decide⟩, ⟨rfl, by decide⟩⟩

theorem witness_DecFrame :
    (exec .dec dataFrame = .next (after .dec dataFrame) ∧ ¬ (4 < dataFrame.ilen.toNat - 4)) ∧
    (exec (.decT1 4) unknownFrame = .next (after (.decT1 4) unknownFrame) ∧
      ¬ (statusOK (after (.decT1 4) unknownFrame).status = true)) := ⟨⟨rfl, by decide⟩, ⟨rfl, by decide⟩⟩

theorem witness_SampleCommandsFrame :
    exec .smpstart dataFrame = .next (after .smpstart dataFrame) ∧
    exec .smpstartW24 dataFrame = .next (after .smpstartW24 dataFrame) ∧
    exec .smpnext (withBbuf [1] 1 0) = .next (after .smpnext (withBbuf [1] 1 0)) := ⟨rfl, rfl, rfl⟩

theorem witness_CommandsNeverWriteOperands :
    (about (.issue 3) dataFrame).pending = .issue 3 :: [] ∧
    ∃ t, step (about (.issue 3) dataFrame) = .next t := ⟨rfl, ⟨_, rfl⟩⟩

/-- Two states that differ in what HDRPACK does not read. -/
theorem witness_ResultsDependOnlyOnTheListedInputs :
    sameInputs .hdrpack State.reset dataFrame ∧ State.reset ≠ dataFrame ∧
    exec .hdrpack State.reset = .next (after .hdrpack State.reset) ∧
    exec .hdrpack dataFrame = .next (after .hdrpack dataFrame) := ⟨⟨rfl, rfl, rfl⟩, by decide, rfl, rfl⟩

theorem witness_RepeatingACommandChangesNothing :
    ∀ i ∈ ([.hdrpack, .hdrunpk, .enc, .dec, .smpstart] : List Instr),
      exec i dataFrame = .next (after i dataFrame) := by
  intro i hi
  fin_cases hi <;> rfl

/-- A state in the middle of a sequence meets the invariant, and steps. -/
theorem witness_EveryStepKeepsTheInvariant :
    StateInv { withBbuf [1, 2, 3] 1 2 with pending := [.issue 5] } ∧
    ∃ t, step { withBbuf [1, 2, 3] 1 2 with pending := [.issue 5] } = .next t := by
  refine ⟨?_, ⟨_, rfl⟩⟩
  constructor <;> decide

/-- A written operand register, an ignored write and the two reads, each about to happen. -/
theorem witness_HostReadsReturnTheRegister :
    ((about (.write .aType 7) dataFrame).pending = .write .aType 7 :: [] ∧
      (afterStep (about (.write .aType 7) dataFrame)).readReg .aType = 7) ∧
    (about (.write .rSample 7) dataFrame).pending = .write .rSample 7 :: [] ∧
    (about (.read .status) dataFrame).pending = .read .status :: [] ∧
    (about (.readByte .bbuf 65534) dataFrame).pending = .readByte .bbuf 65534 :: [] := by decide

/-- D8, for DEC and for the row of its type; and the row of a type that is data-bearing, where no code is refused. -/
theorem witness_DecOfAnUnrecognisedItemCode :
    (le16 (unknownFrame.byteOf .ibuf 0) (unknownFrame.byteOf .ibuf 1) = mkHeader 1 4 ∧
      (Instr.decT1 4).headerFields = some (1, 4) ∧
      unpackHeader unknownFrame.cfg (mkHeader 1 4) = .ok (1, unknownFrame.ilen.toNat) ∧
      4 ≤ unknownFrame.ilen.toNat ∧ isData unknownFrame.cfg 1 = false ∧
      isItem unknownFrame.cfg (le16 (unknownFrame.byteOf .ibuf 2) (unknownFrame.byteOf .ibuf 3)) = false) ∧
    (after (.decT1 4) unknownFrame).status = 0x08 ∧ (after (.decT5 4) unknownFrame).status = 0x01 := by decide

end Sys2Proof.Tests
end

/-! ## The state (10_state.md): facts about the step, the buffers and the iterator, and the statements they settle -/

namespace Sys2Proof.Machine

/-! ### The step and the row it runs -/

/-- A step with an action pending performs it with that action taken off (R43, R44). -/
theorem step_of_pending {s : State} {a : HostAction} {rest : List HostAction} (h : s.pending = a :: rest) :
    step s = perform (s.withPending rest) a := by
  simp only [step, h]
  rfl

/-- A step with nothing pending changes nothing (R13). -/
theorem step_of_nil {s : State} (h : s.pending = []) : step s = .next s := by
  simp only [step, h]

/-- The inversion of `step`: nothing was pending and nothing changed, or the first pending action was performed. -/
theorem step_cases {s t : State} (h : step s = .next t) :
    (s.pending = [] ∧ t = s) ∨
    ∃ a rest, s.pending = a :: rest ∧ perform (s.withPending rest) a = .next t := by
  cases hp : s.pending with
  | nil =>
    rw [step_of_nil hp] at h
    cases h
    exact .inl ⟨rfl, rfl⟩
  | cons a rest => exact .inr ⟨a, rest, rfl, step_of_pending hp ▸ h⟩

/-- The width decoder reads the row of the width it is given (R59). -/
theorem sampleWidth_of_decodeWidth {w : Byte} {i : Instr} (h : decodeWidth w = .ok i) :
    i.sampleWidth = some w := by
  unfold decodeWidth at h
  split at h <;> cases h <;> exact congrArg some (BitVec.eq_of_toNat_eq (by simp [*]))

/-- A row of format HDR16 starts no sequence. -/
theorem headerRow_starts_nothing {i : Instr} (h : i.headerFields.isSome = true) :
    i ≠ .smpstart ∧ i.sampleWidth = none := by
  cases i <;> simp [Instr.headerFields, Instr.sampleWidth] at h ⊢

/-- A row of format WIDTH8 stores to no buffer. -/
theorem widthRow_stores_nothing {i : Instr} (h : i.sampleWidth.isSome = true) :
    i ≠ .enc ∧ i ≠ .dec ∧ i.headerFields = none := by
  cases i <;> simp [Instr.headerFields, Instr.sampleWidth] at h ⊢

section IssuedRow

variable (s : State)

/-! The row that an issued code selects (R24, R66). -/

theorem State.issuedRow_dec_of_short (h : s.ilen.toNat < 2) : s.issuedRow 3 = .dec :=
  if_pos h

theorem State.issuedRow_dec_of_header (h : 2 ≤ s.ilen.toNat) :
    s.issuedRow 3 = decodeHeader (le16 (s.byteOf .ibuf 0) (s.byteOf .ibuf 1)) :=
  if_neg (Nat.not_lt.2 h)

theorem State.issuedRow_smpstart_of_ok {i : Instr} (h : decodeWidth s.aWidth = .ok i) : s.issuedRow 4 = i := by
  simp [State.issuedRow, decodeCmd, h]

theorem State.issuedRow_smpstart_of_err {e : Reject} (h : decodeWidth s.aWidth = .err e) :
    s.issuedRow 4 = .smpstart := by
  simp [State.issuedRow, decodeCmd, h]

theorem State.issuedRow_own {op : BitVec 3} (h3 : op ≠ 3) (h4 : op ≠ 4) : s.issuedRow op = decodeCmd op := by
  have hcmd : ∀ op : BitVec 3, op ≠ 3 → op ≠ 4 → decodeCmd op ≠ .dec ∧ decodeCmd op ≠ .smpstart := by
    decide
  obtain ⟨hdec, hstart⟩ := hcmd op h3 h4
  unfold State.issuedRow
  split
  · exact absurd ‹_› hdec
  · exact absurd ‹_› hstart
  · rfl

/-- Code 3 runs DEC on a header: DEC itself or one of the eight rows (R66). -/
theorem State.issuedRow_dec : s.issuedRow 3 = .dec ∨ (s.issuedRow 3).headerFields.isSome = true := by
  rcases Nat.lt_or_ge s.ilen.toNat 2 with h | h
  · exact .inl (s.issuedRow_dec_of_short h)
  · right
    rw [s.issuedRow_dec_of_header h, decodeHeader, headerFields_headerRow]
    rfl

/-- Code 4 runs SMPSTART, or the row of the width in `A_WIDTH` (R66). -/
theorem State.issuedRow_smpstart : s.issuedRow 4 = .smpstart ∨ (s.issuedRow 4).sampleWidth = some s.aWidth := by
  cases h : decodeWidth s.aWidth with
  | ok i => exact .inr (by rw [s.issuedRow_smpstart_of_ok h]; exact sampleWidth_of_decodeWidth h)
  | err e => exact .inl (s.issuedRow_smpstart_of_err h)

/-- No code but 4 runs a row that starts a sequence (R66). -/
theorem State.issuedRow_starts_nothing {op : BitVec 3} (h : op ≠ 4) :
    s.issuedRow op ≠ .smpstart ∧ (s.issuedRow op).sampleWidth = none := by
  by_cases h3 : op = 3
  · subst h3
    rcases s.issuedRow_dec with e | e
    · rw [e]; exact ⟨by decide, rfl⟩
    · exact headerRow_starts_nothing e
  · have hcmd : ∀ op : BitVec 3, op ≠ 4 → decodeCmd op ≠ .smpstart ∧ (decodeCmd op).sampleWidth = none := by
      decide
    rw [s.issuedRow_own h3 h]
    exact hcmd op h

/-- A row of format WIDTH8 is only issued with its own width in `A_WIDTH` (log entry 7). -/
theorem State.sampleWidth_issuedRow {op : BitVec 3} {w : Byte} (h : (s.issuedRow op).sampleWidth = some w) :
    w = s.aWidth := by
  by_cases h4 : op = 4
  · subst h4
    rcases s.issuedRow_smpstart with e | e <;> rw [e] at h <;> cases h
    rfl
  · rw [(s.issuedRow_starts_nothing h4).2] at h
    cases h

end IssuedRow

/-! ### What DEC and its rows leave -/

/-- The writes of a DEC reach its result group (R20) and nothing else, and clear the iterator (R81). -/
theorem State.finishDec_frame (s : State) (r : Result ErrorKind DecodedFrame) :
    s.finishDec r = { s with
      rType := (s.finishDec r).rType, rLen := (s.finishDec r).rLen, rItem := (s.finishDec r).rItem
      rItemV := (s.finishDec r).rItemV, rSeq := (s.finishDec r).rSeq, rSeqV := (s.finishDec r).rSeqV
      bbuf := (s.finishDec r).bbuf, blen := (s.finishDec r).blen
      sActive := 0, sStride := 0, sPos := 0, status := (s.finishDec r).status } := by
  cases r <;> rfl

/-- DEC and its rows are DEC on some header. -/
theorem eq_decHeaded_of_exec {i : Instr} {s t : State} (hi : i = .dec ∨ i.headerFields.isSome = true)
    (h : exec i s = .next t) : ∃ ty lenf, t = s.decHeaded ty lenf := by
  rcases hi with rfl | hi
  · rw [exec_dec] at h
    cases h
    exact ⟨_, _, rfl⟩
  · obtain ⟨⟨ty, lenf⟩, hf⟩ := Option.isSome_iff_exists.1 hi
    rw [exec_of_headerFields i s ty lenf hf] at h
    cases h
    exact ⟨ty, lenf, rfl⟩

/-! ### The invariant -/

/-- The reset values meet the invariant at any legal parameters (R22, R26). -/
theorem StateInv.resetOf {cfg : Config} (hcfg : cfg.wf) (epoch : Nat) (pending : List HostAction) :
    StateInv (State.resetOf cfg epoch pending) where
  cfgWf := hcfg
  statusLegal := by simp [State.resetOf, legalStatus]
  lenBounds := .inl rfl
  oneValid h := absurd h.1 (by simp [State.resetOf])
  itemRecognised := ⟨fun h => absurd h (by simp [State.resetOf]), fun _ => rfl⟩
  seqCleared _ := rfl
  olenBounds := .inl rfl
  sequenceActive h := absurd h (by simp [State.resetOf])
  sequenceInactive _ := ⟨rfl, rfl⟩
  ibufWf := Memory.wf_reset cfg epoch pending .ibuf
  obufWf := Memory.wf_reset cfg epoch pending .obuf
  bbufWf := Memory.wf_reset cfg epoch pending .bbuf

namespace StateInv

variable {s : State} (hs : StateInv s)
include hs

/-- CAP fits a 16-bit length (R6). -/
theorem cap_le : s.cfg.cap ≤ 65535 := hs.cfgWf.2.1

/-- So a length within CAP is stored in a length register as it is. -/
theorem toNat_ofNat_of_le_cap {n : Nat} (h : n ≤ s.cfg.cap) : (BitVec.ofNat 16 n).toNat = n := by
  have hcap := hs.cap_le
  rw [BitVec.toNat_ofNat]
  omega

/-- The pending actions are no part of the invariant. -/
theorem withPending (p : List HostAction) : StateInv (s.withPending p) := { hs with }

/-- A sequence that has ended meets the invariant whatever `BLEN` is (R19, R25). -/
theorem endSequence (n : Half) : StateInv { s.endSequence with blen := n } :=
  { hs with
    sequenceActive := fun h => absurd h (by simp)
    sequenceInactive := fun _ => ⟨rfl, rfl⟩ }

/-- A sequence starts at the beginning of the body with a stride of 1 to 4 (R19, R94). -/
theorem startSequence {w k : Nat} (hk : strideOf w = .ok k) (a : Byte) :
    StateInv { s with
      aWidth := a, sActive := 1, sStride := BitVec.ofNat 3 k, sPos := 0, rSample := 0, status := 0x01 } := by
  obtain ⟨h1, h4, -⟩ := strideOf_ok w k hk
  have hn : (BitVec.ofNat 3 k).toNat = k := by rw [BitVec.toNat_ofNat]; omega
  exact
    { hs with
      statusLegal := by simp [legalStatus]
      sequenceActive := fun _ => by simp [hn, h1, h4]
      sequenceInactive := fun h => absurd h (by simp) }

/-- SMPNEXT moves the position by one stride that the body still holds (R95). -/
theorem nextSample (h : s.sActive ≠ 0) (hle : s.sPos.toNat + s.sStride.toNat ≤ s.blen.toNat) (x : Sample) :
    StateInv { s with
      rSample := x, sPos := BitVec.ofNat 16 (s.sPos.toNat + s.sStride.toNat), status := 0x01 } := by
  have hn : (BitVec.ofNat 16 (s.sPos.toNat + s.sStride.toNat)).toNat = s.sPos.toNat + s.sStride.toNat := by
    have := s.blen.isLt
    rw [BitVec.toNat_ofNat]
    omega
  exact
    { hs with
      statusLegal := by simp [legalStatus]
      sequenceActive := fun ha => by
        obtain ⟨h1, h4, hdvd, -⟩ := hs.sequenceActive ha
        exact ⟨h1, h4, (Nat.dvd_add hdvd dvd_rfl).trans hn.symm.dvd, hn.trans_le hle⟩
      sequenceInactive := fun h0 => absurd h0 h }

/-- A failed DEC clears every register the invariant bounds (R107). -/
theorem finishDec_err (e : ErrorKind) : StateInv (s.finishDec (.err e)) := by
  rw [State.finishDec_err]
  exact
    { hs with
      statusLegal := by cases e <;> simp [legalStatus]
      lenBounds := .inl rfl
      oneValid := fun h => absurd h.1 (by simp)
      itemRecognised := ⟨fun h => absurd h (by simp), fun _ => rfl⟩
      seqCleared := fun _ => rfl
      sequenceActive := fun h => absurd h (by simp)
      sequenceInactive := fun _ => ⟨rfl, rfl⟩ }

/-- A successful DEC of a frame of 4 to CAP bytes reports a length and a body within the bounds, and exactly one
of a recognised item code and a sequence number (R23, R54, R81). -/
theorem finishDec_ok {f : DecodedFrame} (hmin : 4 ≤ f.declared) (hmax : f.declared ≤ s.cfg.cap)
    (hbody : f.body.length ≤ f.declared)
    (hpart : (∃ seq, f.item = none ∧ f.seq = some seq) ∨
      ∃ item, isItem s.cfg item = true ∧ f.item = some item ∧ f.seq = none) :
    StateInv (s.finishDec (.ok f)) := by
  have hcap := hs.cap_le
  rw [State.finishDec_ok]
  exact
    { hs with
      statusLegal := by simp [legalStatus]
      lenBounds := .inr (by
        rw [hs.toNat_ofNat_of_le_cap hmax]
        exact ⟨Nat.le_trans (by decide) hmin, hmax⟩)
      oneValid := by
        rcases hpart with ⟨q, hi, hq⟩ | ⟨c, -, hi, hq⟩ <;> simp [optionValid, hi, hq]
      itemRecognised := by
        rcases hpart with ⟨q, hi, hq⟩ | ⟨c, hc, hi, hq⟩
        · simp [optionValid, optionValue, hi]
        · simp [optionValid, optionValue, hi, hc]
      seqCleared := by
        rcases hpart with ⟨q, hi, hq⟩ | ⟨c, -, hi, hq⟩ <;> simp [optionValid, optionValue, hq]
      sequenceActive := fun h => absurd h (by simp)
      sequenceInactive := fun _ => ⟨rfl, rfl⟩
      bbufWf := Memory.wf_putAll _ _ _ _ hs.bbufWf (by unfold Config.nmax; omega) }

theorem decHeaded (ty : FrameType) (lenf : LenField) : StateInv (s.decHeaded ty lenf) := by
  rcases s.decHeaded_cases ty lenf with ⟨f, e, -, hd, hbody, hmin, hmax, -, hpart⟩ | ⟨k, e, -⟩
  · rw [e]
    refine hs.finishDec_ok (by omega) (by omega) (by rw [hbody, State.length_memRead]; omega) ?_
    rcases hpart with ⟨-, hi, hq⟩ | ⟨-, hc, hi, hq⟩
    · exact .inl ⟨_, hi, hq⟩
    · exact .inr ⟨_, hc, hi, hq⟩
  · rw [e]
    exact hs.finishDec_err k

/-- ENC stores a whole frame of at most CAP bytes (R76, R77). -/
theorem storeFrame {n : Nat} {bytes : List Byte} (hn : bytes.length = n) (hmin : 4 ≤ n) (hmax : n ≤ s.cfg.cap) :
    StateInv { s with
      obuf := Memory.putAll s.obuf 0 bytes, olen := BitVec.ofNat 16 n, status := 0x01 } :=
    { hs with
      statusLegal := by simp [legalStatus]
      olenBounds := .inr (by
        rw [hs.toNat_ofNat_of_le_cap hmax]
        exact ⟨hmin, hmax⟩)
      obufWf := Memory.wf_putAll _ _ _ _ hs.obufWf (by rw [Nat.zero_add, hn]; exact hmax) }

/-- HDRUNPK reports a length of 2 to CAP (R68, R70). -/
theorem reportLength {hdr : Half} {ty : FrameType} {d : Nat} (h : unpackHeader s.cfg hdr = .ok (ty, d)) :
    StateInv { s with rType := ty, rLen := BitVec.ofNat 16 d, status := 0x01 } := by
  have hd := declaredLength_bounds _ _ _ _ ((unpackHeader_eq _ _ _ _).1 h).2
  exact
    { hs with
      statusLegal := by simp [legalStatus]
      lenBounds := .inr (by
        rw [hs.toNat_ofNat_of_le_cap hd.2]
        exact hd) }

/-- Every instruction keeps the invariant. -/
theorem of_effect {i : Instr} {t : State} (h : ExecEffect s i t) : StateInv t := by
  cases h with
  | hdrpackOk hdr _ => exact { hs with statusLegal := by simp [legalStatus] }
  | hdrpackErr _ => exact { hs with statusLegal := by simp [legalStatus] }
  | hdrunpkOk ty d h => exact hs.reportLength h
  | hdrunpkErr _ => exact { hs with statusLegal := by simp [legalStatus], lenBounds := .inl rfl }
  | encOk hdr h =>
    exact hs.storeFrame (by simp; omega) (by omega) (packHeader_bounds _ _ _ _ h).2
  | encErr _ => exact { hs with statusLegal := by simp [legalStatus], olenBounds := .inl rfl }
  | decHeaded i ty lenf _ => exact hs.decHeaded ty lenf
  | smpstartOk k hk => exact hs.startSequence hk s.aWidth
  | smpstartErr _ =>
    exact { hs.endSequence s.blen with statusLegal := by simp [legalStatus] }
  | smpstartRow i w k _ hk => exact hs.startSequence hk w
  | smpnextInactive _ => exact { hs with statusLegal := by simp [legalStatus] }
  | smpnextSample h hle => exact hs.nextSample h hle _
  | smpnextEnd _ _ => exact { hs with statusLegal := by simp [legalStatus] }
  | reserved i _ => exact { hs with statusLegal := by simp [legalStatus] }

/-- A host write of a register keeps the invariant: operand registers and ILEN are free, and BLEN ends the
sequence (R16 to R18, R25). -/
theorem hostWrite (r : Reg) (v : BitVec r.width) : StateInv (s.hostWrite r v) := by
  cases r with
  | blen => exact hs.endSequence v
  | aType | aLen | aHdr | aCode | aWidth | ilen => exact { hs with }
  | rHdr | rType | rLen | rItem | rItemV | rSeq | rSeqV | rSample | olen | status => exact hs

/-- A host write of a buffer byte lands below NMAX (R18, R25). -/
theorem hostWriteByte (b : Buf) (k : Fin 65535) (v : Byte) : StateInv (s.hostWriteByte b k.val v) := by
  have hk : k.val + [v].length ≤ Config.nmax := k.isLt
  cases b with
  | ibuf => exact { hs with ibufWf := Memory.wf_putAll _ _ _ _ hs.ibufWf hk }
  | obuf => exact hs
  | bbuf => exact { hs.endSequence s.blen with bbufWf := Memory.wf_putAll _ _ _ _ hs.bbufWf hk }

/-- Every action of the host keeps the invariant. -/
theorem of_perform {a : HostAction} {t : State} (h : perform s a = .next t) : StateInv t := by
  cases a with
  | issue op => exact hs.of_effect (effect_of_exec _ _ _ h)
  | write r v => cases h; exact hs.hostWrite r v
  | writeByte b k v => cases h; exact hs.hostWriteByte b k v
  | read r => cases h; exact hs
  | readByte b k => cases h; exact hs
  | reset => cases h; exact StateInv.resetOf hs.cfgWf _ _

end StateInv

/-- Settles O57: the first pending action is performed, and each action keeps the invariant. -/
theorem everyStepKeepsTheInvariant : Obligations.EveryStepKeepsTheInvariant := by
  intro s t hs h
  rcases step_cases h with ⟨-, rfl⟩ | ⟨a, rest, -, h⟩
  · exact hs
  · exact (hs.withPending rest).of_perform h

/-- Settles O58. -/
theorem resetMeetsTheInvariant : Obligations.ResetMeetsTheInvariant :=
  StateInv.resetOf (by decide) 0 []

/-! ### What an instruction writes, from its effects -/

section Effects

variable {i : Instr} {s t : State}

/-- DEC and its rows write no operand register, nor IBUF, ILEN and the parameters (R16, R18, R20). -/
theorem State.decHeaded_sameOperands (s : State) (ty : FrameType) (lenf : LenField) :
    sameOperands s (s.decHeaded ty lenf) := by
  rw [State.decHeaded, State.finishDec_frame]
  exact ⟨rfl, rfl, rfl, rfl, rfl, rfl, rfl, rfl⟩

@[simp] theorem State.decHeaded_epoch (s : State) (ty : FrameType) (lenf : LenField) :
    (s.decHeaded ty lenf).epoch = s.epoch := by
  rw [State.decHeaded, State.finishDec_frame]

@[simp] theorem State.decHeaded_pending (s : State) (ty : FrameType) (lenf : LenField) :
    (s.decHeaded ty lenf).pending = s.pending := by
  rw [State.decHeaded, State.finishDec_frame]

/-- DEC and its rows end the sequence, successful or not (R25, R81). -/
theorem State.decHeaded_iterator (s : State) (ty : FrameType) (lenf : LenField) :
    (s.decHeaded ty lenf).sActive = 0 ∧ (s.decHeaded ty lenf).sStride = 0 ∧ (s.decHeaded ty lenf).sPos = 0 := by
  rw [State.decHeaded, State.finishDec_frame]
  exact ⟨rfl, rfl, rfl⟩

/-- No instruction writes an operand register, save that a row of format WIDTH8 puts its own width into `A_WIDTH`
(R16, R18, R20; log entry 7). -/
theorem ExecEffect.sameOperands (h : ExecEffect s i t) (hw : ∀ w, i.sampleWidth = some w → w = s.aWidth) :
    sameOperands s t := by
  cases h
  case decHeaded => exact s.decHeaded_sameOperands _ _
  case smpstartRow w k _ h => exact ⟨rfl, rfl, rfl, rfl, rfl, hw w h, rfl, rfl⟩
  all_goals exact ⟨rfl, rfl, rfl, rfl, rfl, rfl, rfl, rfl⟩

/-- No instruction is a reset. -/
theorem ExecEffect.epoch_eq (h : ExecEffect s i t) : t.epoch = s.epoch := by
  cases h
  case decHeaded ty lenf _ => exact s.decHeaded_epoch ty lenf
  all_goals rfl

/-- No instruction touches the host's further actions. -/
theorem ExecEffect.pending_eq (h : ExecEffect s i t) : t.pending = s.pending := by
  cases h
  case decHeaded ty lenf _ => exact s.decHeaded_pending ty lenf
  all_goals rfl

/-- Only ENC, DEC and the DEC rows store to a buffer (R20). -/
theorem ExecEffect.memoryOf_eq (h : ExecEffect s i t) (henc : i ≠ .enc) (hdec : i ≠ .dec)
    (hrow : i.headerFields = none) (b : Buf) : t.memoryOf b = s.memoryOf b := by
  cases h
  case encOk => exact absurd rfl henc
  case decHeaded ty lenf h =>
    rcases h with ⟨h, -⟩ | h
    · exact absurd h hdec
    · rw [hrow] at h; cases h
  all_goals cases b <;> rfl

/-- A sequence starts by SMPSTART or a row of format WIDTH8 and by nothing else (R19, R94). -/
theorem ExecEffect.inactive (h : ExecEffect s i t) (hs : s.sActive = 0) (hstart : i ≠ .smpstart)
    (hrow : i.sampleWidth = none) : t.sActive = 0 := by
  cases h
  case decHeaded ty lenf _ => exact (s.decHeaded_iterator ty lenf).1
  case smpstartOk => exact absurd rfl hstart
  case smpstartRow w k _ h => rw [hrow] at h; cases h
  case smpstartErr => rfl
  all_goals exact hs

/-- A byte depends on what is written in its own buffer and on the epoch (R27). -/
theorem State.byteOf_congr {b : Buf} (hm : t.memoryOf b = s.memoryOf b) (he : t.epoch = s.epoch) (k : Nat) :
    t.byteOf b k = s.byteOf b k := by
  simp only [State.byteOf, hm, he]

/-- So an instruction that stores to no buffer leaves every byte as it was. -/
theorem ExecEffect.byteOf_eq (h : ExecEffect s i t) (henc : i ≠ .enc) (hdec : i ≠ .dec)
    (hrow : i.headerFields = none) (b : Buf) (k : Nat) : t.byteOf b k = s.byteOf b k :=
  State.byteOf_congr (h.memoryOf_eq henc hdec hrow b) h.epoch_eq k

/-- The bytes after a successful ENC: the frame from index 0 of OBUF, every other byte as before (R77). -/
theorem State.storeFrame_byteOf (s : State) (n : Half) (v : Byte) (bytes : List Byte) (b : Buf) (k : Nat) :
    ({ s with obuf := Memory.putAll s.obuf 0 bytes, olen := n, status := v } : State).byteOf b k =
      if b = .obuf ∧ k < bytes.length then (bytes[k]?).getD 0 else s.byteOf b k := by
  have h := s.byteOf_memWrite .obuf b 0 k bytes
  simp only [Nat.zero_le, true_and, Nat.zero_add, Nat.sub_zero] at h
  rw [← h]
  exact State.byteOf_congr (by cases b <;> rfl) rfl k

end Effects

/-! ### Unwritten bytes -/

/-- `t` is `s` after at most one `MemWrite` to each buffer, with no reset between them. -/
def OnlyStores (s t : State) : Prop :=
  t.epoch = s.epoch ∧ ∀ b, ∃ i bytes, t.memoryOf b = Memory.putAll (s.memoryOf b) i bytes

namespace OnlyStores

variable {s t : State}

/-- Equal buffers differ by a `MemWrite` of no byte. -/
theorem of_memoryOf_eq (he : t.epoch = s.epoch) (hm : ∀ b, t.memoryOf b = s.memoryOf b) : OnlyStores s t :=
  ⟨he, fun b => ⟨0, [], hm b⟩⟩

theorem memWrite (s : State) (b : Buf) (i : Nat) (bytes : List Byte) : OnlyStores s (s.memWrite b i bytes) := by
  refine ⟨State.setMemory_epoch .., fun c => ?_⟩
  by_cases hc : c = b
  · subst hc
    exact ⟨i, bytes, State.memoryOf_setMemory ..⟩
  · exact ⟨0, [], State.memoryOf_setMemory_ne _ _ _ _ hc⟩

/-- A change of registers, before and after, does not matter. -/
theorem congr {s' t' : State} (h : OnlyStores s t) (hes : s'.epoch = s.epoch) (hs : s'.memoryOf = s.memoryOf)
    (het : t'.epoch = t.epoch) (ht : t'.memoryOf = t.memoryOf) : OnlyStores s' t' :=
  ⟨het.trans (h.1.trans hes.symm), fun b => by rw [hs, ht]; exact h.2 b⟩

theorem finishDec (s : State) (r : Result ErrorKind DecodedFrame) : OnlyStores s (s.finishDec r) := by
  cases r with
  | ok f => exact (memWrite s .bbuf 0 f.body).congr rfl rfl rfl (funext fun b => by cases b <;> rfl)
  | err e => exact of_memoryOf_eq rfl fun b => by cases b <;> rfl

/-- Every instruction only stores. -/
theorem of_effect {i : Instr} (h : ExecEffect s i t) : OnlyStores s t := by
  cases h
  case decHeaded => exact finishDec s _
  case encOk => exact (memWrite s .obuf 0 _).congr rfl rfl rfl (funext fun b => by cases b <;> rfl)
  all_goals exact of_memoryOf_eq rfl fun b => by cases b <;> rfl

theorem hostWriteByte (s : State) (b : Buf) (k : Nat) (v : Byte) : OnlyStores s (s.hostWriteByte b k v) := by
  cases b with
  | ibuf => exact memWrite s .ibuf k [v]
  | obuf => exact of_memoryOf_eq rfl fun _ => rfl
  | bbuf => exact (memWrite s.endSequence .bbuf k [v]).congr rfl (funext fun b => by cases b <;> rfl) rfl rfl

/-- Every action of the host but a reset only stores. -/
theorem of_perform {a : HostAction} (ha : a ≠ .reset) (h : perform s a = .next t) : OnlyStores s t := by
  cases a with
  | issue op => exact of_effect (effect_of_exec _ _ _ h)
  | write r v => cases h; exact of_memoryOf_eq (by cases r <;> rfl) fun b => by cases r <;> cases b <;> rfl
  | writeByte b k v => cases h; exact hostWriteByte s b k.val v
  | read r => cases h; exact of_memoryOf_eq rfl fun _ => rfl
  | readByte b k => cases h; exact of_memoryOf_eq rfl fun _ => rfl
  | reset => exact absurd rfl ha

/-- A `MemWrite` leaves no byte unwritten that was written before, so an unwritten byte is the same draw (R27). -/
theorem unwritten {b : Buf} {k : Nat} (h : OnlyStores s t) (hk : Memory.byteAt (t.memoryOf b) k = none) :
    Memory.byteAt (s.memoryOf b) k = none ∧ t.byteOf b k = s.byteOf b k := by
  obtain ⟨he, hm⟩ := h
  obtain ⟨i, bytes, hm⟩ := hm b
  have hs : Memory.byteAt (s.memoryOf b) k = none := by
    rw [hm, Memory.byteAt_putAll] at hk
    split at hk
    · rename_i hin
      rw [List.getElem?_eq_none_iff] at hk
      omega
    · exact hk
  exact ⟨hs, by simp only [State.byteOf, hk, hs, he]⟩

end OnlyStores

/-- Settles O13: every action but a reset only stores, and a reset empties every buffer. -/
theorem unwrittenBytesKeepTheirDraw : Obligations.UnwrittenBytesKeepTheirDraw := by
  intro s t h
  rcases step_cases h with ⟨hp, rfl⟩ | ⟨a, rest, hp, h⟩
  · exact ⟨fun _ b k hk => ⟨hk, rfl⟩, fun rest hr => absurd (hp.symm.trans hr) (by simp)⟩
  · refine ⟨fun hne b k hk => ?_, fun rest' hr b k => ?_⟩
    · have hstores := OnlyStores.of_perform (fun ha => hne rest (ha ▸ hp)) h
      exact (hstores.congr (s' := s) rfl (funext fun b => by cases b <;> rfl) rfl rfl).unwritten hk
    · obtain ⟨rfl, rfl⟩ := List.cons.inj (hp.symm.trans hr)
      cases h
      cases b <;> exact ⟨rfl, rfl⟩

/-! ### Changing the body -/

/-- Nothing but an issue of SMPSTART makes a sequence active. -/
theorem perform_inactive {s t : State} {a : HostAction} (ha : a ≠ .issue 4) (hs : s.sActive = 0)
    (h : perform s a = .next t) : t.sActive = 0 := by
  cases a with
  | issue op =>
    obtain ⟨hstart, hrow⟩ := s.issuedRow_starts_nothing (op := op) (fun e => ha (congrArg _ e))
    exact (effect_of_exec _ _ _ h).inactive hs hstart hrow
  | write r v =>
    cases h
    cases r with
    | blen => rfl
    | _ => exact hs
  | writeByte b k v =>
    cases h
    cases b with
    | bbuf => rfl
    | ibuf | obuf => exact hs
  | read r => cases h; exact hs
  | readByte b k => cases h; exact hs
  | reset => cases h; rfl

/-- Every action of the host is answered with a next state (R131). -/
theorem exists_perform (s : State) (a : HostAction) : ∃ t, perform s a = .next t := by
  cases a with
  | issue op =>
    obtain ⟨t, h, -⟩ := exec_effect (s.issuedRow op) s
    exact ⟨t, h⟩
  | write r v => exact ⟨_, rfl⟩
  | writeByte b k v => exact ⟨_, rfl⟩
  | read r => exact ⟨_, rfl⟩
  | readByte b k => exact ⟨_, rfl⟩
  | reset => exact ⟨_, rfl⟩

/-- Over any list of actions without an issue of SMPSTART no sequence becomes active. -/
theorem runScript_inactive (as : List HostAction) (has : .issue 4 ∉ as) (s : State) (hs : s.sActive = 0) :
    ∃ t, runScript as s = .next t ∧ t.sActive = 0 := by
  induction as generalizing s with
  | nil => exact ⟨_, runScript_nil s, hs⟩
  | cons a as ih =>
    obtain ⟨hne, has⟩ := not_or.1 (List.mem_cons.not.1 has)
    obtain ⟨t, ht⟩ := exists_perform s a
    rw [runScript_cons, ht]
    exact ih has t (perform_inactive (Ne.symm hne) hs ht)

/-- SMPNEXT with no active sequence is BadCommand with `R_SAMPLE` 0 (R95). -/
theorem runScript_smpnext_inactive {s : State} (hs : s.sActive = 0) :
    runScript [.issue 5] s = .next { s with rSample := 0, status := 0x1C, pending := [] } :=
  (show runScript [.issue 5] s = thenRun (exec .smpnext s) (runScript []) from runScript_cons ..).trans
    (congrArg (thenRun · (runScript [])) (if_pos hs))

/-- A host write of a BBUF byte or of BLEN, or a DEC, ends the sequence (R25). -/
theorem perform_changesBody {s : State} {a : HostAction}
    (ha : (∃ k v, a = .writeByte .bbuf k v) ∨ (∃ v, a = .write .blen v) ∨ a = .issue 3) :
    ∃ t, perform s a = .next t ∧ t.sActive = 0 ∧ t.sStride = 0 ∧ t.sPos = 0 := by
  rcases ha with ⟨k, v, rfl⟩ | ⟨v, rfl⟩ | rfl
  · exact ⟨_, rfl, rfl, rfl, rfl⟩
  · exact ⟨_, rfl, rfl, rfl, rfl⟩
  · obtain ⟨t, h⟩ := exists_perform s (.issue 3)
    obtain ⟨ty, lenf, rfl⟩ := eq_decHeaded_of_exec s.issuedRow_dec h
    exact ⟨_, h, s.decHeaded_iterator ty lenf⟩

/-- Settles O41: the change ends the sequence, and nothing between it and the SMPNEXT starts one. -/
theorem changingTheBodyEndsTheSequence : Obligations.ChangingTheBodyEndsTheSequence := by
  intro s a between ha hbetween
  obtain ⟨t, ht, hactive, hstride, hpos⟩ := perform_changesBody (s := s) ha
  obtain ⟨u, hu, hinactive⟩ := runScript_inactive between hbetween t hactive
  constructor
  · exact ⟨t.withPending [], by rw [runScript_cons, ht]; rfl, hactive, hstride, hpos⟩
  · refine ⟨{ u with rSample := 0, status := 0x1C, pending := [] }, ?_, rfl, rfl⟩
    rw [List.cons_append, runScript_cons, ht]
    simp only [thenRun]
    rw [runScript_append, hu]
    exact runScript_smpnext_inactive hinactive

/-! ### Frames -/

@[simp] theorem statusOK_success : statusOK 1#8 = true := by decide

/-- `OK` is 0 after every failure (R22, R107). -/
@[simp] theorem statusOK_failure (e : ErrorKind) : statusOK (statusFailure e) = false := by
  cases e <;> decide

/-- Settles O49: by the class of the type that DEC reports. -/
theorem exactlyOneValidBitAfterDec : Obligations.ExactlyOneValidBitAfterDec := by
  intro i s t hi h
  obtain ⟨ty, lenf, rfl⟩ := eq_decHeaded_of_exec hi h
  rcases s.decHeaded_cases ty lenf with ⟨f, e, rfl, -, -, -, -, -, hpart⟩ | ⟨k, e, hk⟩
  · rw [e, State.finishDec_ok]
    rcases hpart with ⟨hdata, hitem, hseq⟩ | ⟨hdata, -, hitem, hseq⟩ <;>
      simp [hdata, hitem, hseq, optionValid]
  · rw [e, State.finishDec_err]
    simp [statusOK_failure]

/-- Settles O50: from what each effect writes. -/
theorem headerCommandsFrame : Obligations.HeaderCommandsFrame := by
  intro i s t h
  have heff := effect_of_exec i s t h
  clear h
  refine ⟨?_, ?_, ?_, ?_⟩
  · rintro rfl
    cases heff with
    | hdrpackOk | hdrpackErr => rfl
    | decHeaded | smpstartRow | reserved => simp_all [Instr.headerFields, Instr.sampleWidth]
  · rintro rfl
    cases heff with
    | hdrunpkOk | hdrunpkErr => rfl
    | decHeaded | smpstartRow | reserved => simp_all [Instr.headerFields, Instr.sampleWidth]
  · rintro (rfl | rfl)
    all_goals
      cases heff with
      | reserved => rfl
      | decHeaded | smpstartRow => simp_all [Instr.headerFields, Instr.sampleWidth]
  · rintro (rfl | rfl | rfl | rfl) b k
    all_goals exact heff.byteOf_eq (by decide) (by decide) rfl b k

/-- Settles O51: a successful ENC stores the frame from index 0 of OBUF, a failed one clears `OLEN` alone. -/
theorem encFrame : Obligations.EncFrame := by
  intro s t h
  have heff := effect_of_exec .enc s t h
  clear h
  cases heff with
  | encOk hdr h =>
    refine ⟨rfl, fun b k hk => ?_⟩
    rw [State.storeFrame_byteOf, if_neg]
    rintro ⟨rfl, hlt⟩
    exact hk ⟨rfl, statusOK_success, by simp at hlt; omega⟩
  | encErr h => exact ⟨rfl, fun b k _ => State.byteOf_congr (by cases b <;> rfl) rfl k⟩
  | decHeaded | smpstartRow | reserved => simp_all [Instr.headerFields, Instr.sampleWidth]

/-- Settles O52: a successful DEC stores the body from index 0 of BBUF, a failed one stores nothing. -/
theorem decFrame : Obligations.DecFrame := by
  intro i s t hi h
  obtain ⟨ty, lenf, rfl⟩ := eq_decHeaded_of_exec hi h
  refine ⟨s.finishDec_frame _, fun b k hk => ?_⟩
  rcases s.decHeaded_cases ty lenf with ⟨f, e, -, -, hbody, -⟩ | ⟨e, he, -⟩
  · rw [e] at hk ⊢
    rw [State.finishDec_ok_byteOf, if_neg]
    rintro ⟨rfl, hlt⟩
    rw [hbody, State.length_memRead] at hlt
    exact hk ⟨rfl, statusOK_success, hlt⟩
  · rw [he]
    exact State.raise_byteOf ..

/-- Settles O53: from what each effect writes. -/
theorem sampleCommandsFrame : Obligations.SampleCommandsFrame := by
  intro i s t h
  have heff := effect_of_exec i s t h
  clear h
  refine ⟨?_, ?_, ?_, ?_⟩
  · rintro rfl
    cases heff with
    | smpstartOk | smpstartErr => rfl
    | decHeaded | smpstartRow | reserved => simp_all [Instr.headerFields, Instr.sampleWidth]
  · intro hi
    obtain ⟨-, hdec, hrow⟩ := widthRow_stores_nothing hi
    cases heff with
    | smpstartRow => rfl
    | decHeaded => simp_all
    | reserved i h => rcases h with rfl | rfl <;> cases hi
    | _ => cases hi
  · rintro rfl
    cases heff with
    | smpnextInactive | smpnextSample | smpnextEnd => rfl
    | decHeaded | smpstartRow | reserved => simp_all [Instr.headerFields, Instr.sampleWidth]
  · intro hi b k
    have hstore : i ≠ .enc ∧ i ≠ .dec ∧ i.headerFields = none := by
      rcases hi with rfl | hi | rfl
      · exact ⟨by decide, by decide, rfl⟩
      · exact widthRow_stores_nothing hi
      · exact ⟨by decide, by decide, rfl⟩
    obtain ⟨henc, hdec, hrow⟩ := hstore
    exact heff.byteOf_eq henc hdec hrow b k

/-- Settles O54: a row of format WIDTH8 is only issued with its width in `A_WIDTH` already. -/
theorem commandsNeverWriteOperands : Obligations.CommandsNeverWriteOperands := by
  intro s t op rest hp h
  rw [step_of_pending hp] at h
  have heff := effect_of_exec _ _ _ h
  refine ⟨?_, heff.epoch_eq, heff.pending_eq⟩
  exact heff.sameOperands fun w hw => State.sampleWidth_issuedRow _ hw

/-! ### Noninterference (R14, R20, R90): the results are a function of the listed inputs -/

section Noninterference

variable {s t s' t' : State}

/-- An index below a 16-bit length register is below the length that was stored in it. -/
theorem lt_of_lt_toNat_ofNat {k n : Nat} (h : k < (BitVec.ofNat 16 n).toNat) : k < n := by
  rw [BitVec.toNat_ofNat] at h
  omega

/-- The rows of format HDR16 read ILEN and IBUF from index 2 (log entry 6). -/
theorem sameInputs_headerRow {i : Instr} (hi : i.headerFields.isSome = true) (h : sameInputs i s t) :
    s.cfg = t.cfg ∧ s.ilen = t.ilen ∧ sameBytes s t .ibuf 2 s.ilen.toNat := by
  cases i <;> simp only [Instr.headerFields, Option.isSome_none, Bool.false_eq_true] at hi <;> exact h

/-- They write what DEC writes. -/
theorem sameOutputs_headerRow {i : Instr} (hi : i.headerFields.isSome = true) (h : sameOutputs .dec s t) :
    sameOutputs i s t := by
  cases i <;> simp only [Instr.headerFields, Option.isSome_none, Bool.false_eq_true] at hi <;> exact h

/-- A `MemRead` within bytes on which two states agree. -/
theorem sameBytes.memRead_eq {b : Buf} {i j : Nat} (h : sameBytes s t b i j) {n : Nat} (hn : n ≤ j - i) :
    s.memRead b i n = t.memRead b i n :=
  State.memRead_congr s t b b i i n fun k hk => h (i + k) (by omega) (by omega)

/-- What DEC writes is a function of the decoded frame (R81). -/
theorem finishDec_sameOutputs (s t : State) (r : Result ErrorKind DecodedFrame) :
    sameOutputs .dec (s.finishDec r) (t.finishDec r) := by
  cases r with
  | ok f =>
    refine ⟨rfl, rfl, rfl, rfl, rfl, rfl, rfl, rfl, rfl, rfl, rfl, fun k _ hk => ?_⟩
    have hlt : k < f.body.length := lt_of_lt_toNat_ofNat hk
    simp only [State.finishDec_ok_byteOf, hlt, and_self, if_true]
  | err e =>
    refine ⟨rfl, rfl, rfl, rfl, rfl, rfl, rfl, rfl, rfl, rfl, rfl, fun k _ hk => ?_⟩
    exact absurd hk (by simp [State.finishDec_err])

/-- What SMPSTART writes is a function of the width (R94). -/
theorem startSequence_sameOutputs (s t : State) (w : Nat) :
    sameOutputs .smpstart (s.startSequence w) (t.startSequence w) := by
  unfold State.startSequence
  cases strideOf w <;> exact ⟨rfl, rfl, rfl, rfl, rfl⟩

theorem hdrpack_sameOutputs (hin : sameInputs .hdrpack s t) (hs : exec .hdrpack s = .next s')
    (ht : exec .hdrpack t = .next t') : sameOutputs .hdrpack s' t' := by
  obtain ⟨hcfg, htype, hlen⟩ := hin
  simp only [exec, execHdrpack] at hs ht
  rw [← hcfg, ← htype, ← hlen] at ht
  cases h : packHeader s.cfg s.aType s.aLen.toNat <;> rw [h] at hs ht <;> cases hs <;> cases ht <;>
    exact ⟨rfl, rfl⟩

theorem hdrunpk_sameOutputs (hin : sameInputs .hdrunpk s t) (hs : exec .hdrunpk s = .next s')
    (ht : exec .hdrunpk t = .next t') : sameOutputs .hdrunpk s' t' := by
  obtain ⟨hcfg, hhdr⟩ := hin
  simp only [exec, execHdrunpk] at hs ht
  rw [← hcfg, ← hhdr] at ht
  cases h : unpackHeader s.cfg s.aHdr <;> rw [h] at hs ht <;> cases hs <;> cases ht <;>
    exact ⟨rfl, rfl, rfl⟩

theorem enc_sameOutputs (hin : sameInputs .enc s t) (hs : exec .enc s = .next s')
    (ht : exec .enc t = .next t') : sameOutputs .enc s' t' := by
  obtain ⟨hcfg, htype, hcode, hlen, hbytes⟩ := hin
  simp only [exec, execEnc] at hs ht
  rw [← hcfg, ← htype, ← hcode, ← hlen, ← hbytes.memRead_eq (n := s.ilen.toNat) (by omega)] at ht
  cases h : encodeFrame s.cfg s.aType s.aCode (s.memRead .ibuf 0 s.ilen.toNat) with
  | ok bytes =>
    rw [h] at hs ht
    cases hs
    cases ht
    refine ⟨rfl, rfl, fun k _ hk => ?_⟩
    have hlt : k < bytes.length := lt_of_lt_toNat_ofNat hk
    simp only [State.setStatus_byteOf, State.byteOf_memWrite, Nat.zero_le, Nat.zero_add, hlt, and_self, if_true]
  | err e =>
    rw [h] at hs ht
    cases hs
    cases ht
    exact ⟨rfl, rfl, fun k _ hk => absurd hk (by simp [State.raise_eq])⟩

theorem dec_sameOutputs (hin : sameInputs .dec s t) (hs : exec .dec s = .next s')
    (ht : exec .dec t = .next t') : sameOutputs .dec s' t' := by
  obtain ⟨hcfg, hlen, hbytes⟩ := hin
  simp only [exec, execDec] at hs ht
  rw [← hcfg, ← hlen, ← hbytes.memRead_eq (n := s.ilen.toNat) (by omega)] at ht
  cases hs
  cases ht
  exact finishDec_sameOutputs ..

theorem headerRow_sameOutputs {i : Instr} (hi : i.headerFields.isSome = true) (hin : sameInputs i s t)
    (hs : exec i s = .next s') (ht : exec i t = .next t') : sameOutputs i s' t' := by
  obtain ⟨hcfg, hlen, hbytes⟩ := sameInputs_headerRow hi hin
  obtain ⟨⟨ty, lenf⟩, hf⟩ := Option.isSome_iff_exists.1 hi
  rw [exec_of_headerFields i _ ty lenf hf, State.decHeaded] at hs ht
  rw [← hcfg, ← hlen, ← hbytes.memRead_eq (Nat.le_refl _)] at ht
  cases hs
  cases ht
  exact sameOutputs_headerRow hi (finishDec_sameOutputs ..)

theorem smpnext_sameOutputs (hin : sameInputs .smpnext s t) (hs : exec .smpnext s = .next s')
    (ht : exec .smpnext t = .next t') : sameOutputs .smpnext s' t' := by
  obtain ⟨hcfg, hactive, hstride, hpos, hblen, hbytes⟩ := hin
  simp only [exec, execSmpnext] at hs ht
  rw [← hactive, ← hstride, ← hpos, ← hblen, ← hcfg] at ht
  by_cases h0 : s.sActive = 0
  · rw [if_pos h0] at hs ht
    cases hs
    cases ht
    exact ⟨rfl, rfl, hpos⟩
  · rw [if_neg h0] at hs ht
    by_cases hle : s.sPos.toNat + s.sStride.toNat ≤ s.blen.toNat
    · rw [if_pos hle] at hs ht
      rw [← (hbytes hle).memRead_eq (by omega)] at ht
      cases hs
      cases ht
      exact ⟨rfl, rfl, rfl⟩
    · rw [if_neg hle] at hs ht
      cases hs
      cases ht
      exact ⟨rfl, rfl, rfl⟩

end Noninterference

/-- Settles O55: command by command, with one lemma for the eight rows of format HDR16 and one for SMPSTART and
its four rows. -/
theorem resultsDependOnlyOnTheListedInputs : Obligations.ResultsDependOnlyOnTheListedInputs := by
  intro i s t s' t' hin hs ht
  cases hi : i.headerFields with
  | some f => exact headerRow_sameOutputs (by rw [hi]; rfl) hin hs ht
  | none =>
    cases i <;> simp only [Instr.headerFields, reduceCtorEq] at hi
    case hdrpack => exact hdrpack_sameOutputs hin hs ht
    case hdrunpk => exact hdrunpk_sameOutputs hin hs ht
    case enc => exact enc_sameOutputs hin hs ht
    case dec => exact dec_sameOutputs hin hs ht
    case smpnext => exact smpnext_sameOutputs hin hs ht
    case smpstart =>
      obtain ⟨-, hwidth⟩ := hin
      simp only [exec, execSmpstart] at hs ht
      rw [← hwidth] at ht
      cases hs
      cases ht
      exact startSequence_sameOutputs ..
    case smpstartW8 | smpstartW16 | smpstartW24 | smpstartW32 =>
      cases hs
      cases ht
      exact startSequence_sameOutputs ..
    case reserved6 | reserved7 =>
      cases hs
      cases ht
      exact ⟨rfl, trivial⟩

/-! ### One step -/

/-- Settles O5: the row of `issuedRow` is what the decoder reads from the code, the header or the width. -/
theorem stepRunsTheIssuedRow : Obligations.StepRunsTheIssuedRow := by
  intro s op rest hp
  have hcmd : ∀ op : BitVec 3, decodeBytes [op.setWidth 8] = .ok (decodeCmd op) := by decide
  refine ⟨?_, fun h3 h4 => ?_, ?_, ?_, ?_, ?_⟩
  · rw [step_of_pending hp]
    rfl
  · rw [s.issuedRow_own h3 h4, hcmd]
  · rintro rfl h
    rw [s.issuedRow_dec_of_header h]
    rfl
  · rintro rfl h
    exact s.issuedRow_dec_of_short h
  · rintro rfl i h
    exact s.issuedRow_smpstart_of_ok h
  · rintro rfl e h
    exact s.issuedRow_smpstart_of_err h

/-- Settles O10. -/
theorem resetLeavesTheResetValues : Obligations.ResetLeavesTheResetValues := by
  have hreset : ∀ cfg epoch pending, resetValues (State.resetOf cfg epoch pending) := fun _ _ _ => by
    simp [resetValues, State.resetOf]
  refine ⟨fun s rest hp => ⟨(s.withPending rest).hostReset, ?_, hreset _ _ _, rfl, rfl⟩, hreset _ _ _⟩
  rw [step_of_pending hp]
  rfl

/-! ### Host accesses -/

/-- The registers that a host write changes (R16, R18). -/
def hostWritable : List Reg := [.aType, .aLen, .aHdr, .aCode, .aWidth, .ilen, .blen]

/-- The registers of which a host write is ignored (R17; log entry 8). -/
def hostReadOnly : List Reg :=
  [.rHdr, .rType, .rLen, .rItem, .rItemV, .rSeq, .rSeqV, .rSample, .olen, .status]

theorem State.hostWrite_readOnly (s : State) {r : Reg} (v : BitVec r.width) (h : r ∈ hostReadOnly) :
    s.hostWrite r v = s := by
  cases r with
  | aType | aLen | aHdr | aCode | aWidth | ilen | blen => exact absurd h (by decide)
  | _ => rfl

/-- A written register reads back, and every other register reads as before (R16, R18). -/
theorem State.readReg_hostWrite (s : State) {r : Reg} (v : BitVec r.width) (h : r ∈ hostWritable) :
    (s.hostWrite r v).readReg r = v ∧ ∀ q, q ≠ r → (s.hostWrite r v).readReg q = s.readReg q := by
  cases r with
  | aType | aLen | aHdr | aCode | aWidth | ilen | blen =>
    exact ⟨rfl, fun q hq => by cases q <;> first | rfl | exact absurd rfl hq⟩
  | _ => exact absurd h (by decide)

@[simp] theorem State.readReg_withPending (s : State) (p : List HostAction) (q : Reg) :
    (s.withPending p).readReg q = s.readReg q := by cases q <;> rfl

/-- One written byte reads back, and every other byte of the buffer reads as before (R41). -/
theorem State.byteOf_memWrite_singleton (s : State) (b : Buf) (i j : Nat) (v : Byte) :
    (s.memWrite b i [v]).byteOf b j = if j = i then v else s.byteOf b j := by
  rw [State.byteOf_memWrite]
  by_cases h : j = i
  · simp [h]
  · rw [if_neg h, if_neg]
    rintro ⟨-, hle, hlt⟩
    simp only [List.length_singleton] at hlt
    omega

/-- Settles O7: a step is the first pending action, and what each access does is said by `hostWrite`,
`hostWriteByte` and the laws of `MemWrite`. -/
theorem stepPerformsHostAccesses : Obligations.StepPerformsHostAccesses := by
  intro s rest
  have hstep {a : HostAction} (hp : s.pending = a :: rest) (t : State)
      (h : perform (s.withPending rest) a = .next t) : step s = .next t := (step_of_pending hp).trans h
  refine ⟨fun v hp => hstep hp _ rfl, fun v hp => hstep hp _ rfl, fun v hp => hstep hp _ rfl,
    fun v hp => hstep hp _ rfl, fun v hp => hstep hp _ rfl, fun v hp => hstep hp _ rfl,
    fun v hp => hstep hp _ rfl, fun r v hr hp => ?_, fun r hp => hstep hp _ rfl, fun b k hp => hstep hp _ rfl,
    fun k v hp => hstep hp _ rfl, fun k v hp => ?_, fun k v hp => ?_, step_of_nil⟩
  · exact hstep hp _ (congrArg Host.Outcome.next (State.hostWrite_readOnly _ v hr))
  · refine ⟨_, hstep hp _ rfl, rfl, fun j => ?_⟩
    exact ((s.withPending rest).byteOf_memWrite_singleton .ibuf k.val j v).trans (by simp)
  · refine ⟨_, hstep hp _ rfl, rfl, fun j => ?_⟩
    exact ((s.withPending rest).endSequence.byteOf_memWrite_singleton .bbuf k.val j v).trans (by simp)

/-- Settles O59: `readReg` before and after a host access. -/
theorem hostReadsReturnTheRegister : Obligations.HostReadsReturnTheRegister := by
  refine ⟨fun s => ⟨rfl, rfl, rfl, rfl, rfl, rfl, rfl, rfl, rfl, rfl, rfl, rfl, rfl, rfl, rfl, rfl, rfl⟩,
    fun s rest r v hp => ?_, fun s rest a ha hp => ?_⟩
  · refine ⟨(s.withPending rest).hostWrite r v, step_of_pending hp, fun hr => ?_, fun hr q => ?_⟩
    · simpa using (s.withPending rest).readReg_hostWrite v hr
    · rw [State.hostWrite_readOnly _ v hr, State.readReg_withPending]
  · refine ⟨s.withPending rest, ?_, by simp, by simp⟩
    rw [step_of_pending hp]
    rcases ha with ⟨r, rfl⟩ | ⟨b, k, rfl⟩ <;> rfl

end Sys2Proof.Machine

/-! ## Buffer memory (20_memory.md): a command issued again at once (R42), and the statement it settles -/

namespace Sys2Proof.Machine

/-! ### A command whose inputs survive its writes repeats -/

/-- A command that writes a function of what it reads changes nothing when it is issued again, if its writes leave
what it reads as it was and the same writes again change nothing (R42). -/
theorem exec_again {ρ : Type} {i : Instr} {s t : State} (reads : State → ρ) (writes : State → ρ → State)
    (hexec : ∀ s, exec i s = .next (writes s (reads s))) (hreads : ∀ s r, reads (writes s r) = reads s)
    (hwrites : ∀ s r, writes (writes s r) r = writes s r) (h : exec i s = .next t) : exec i t = .next t := by
  rw [hexec] at h ⊢
  cases h
  rw [hreads, hwrites]

/-- `MemRead` from a buffer whose written bytes and whose draw are as before (R27, R41). -/
theorem State.memRead_of_memoryOf_eq (s t : State) {b : Buf} (hm : t.memoryOf b = s.memoryOf b)
    (he : t.epoch = s.epoch) (i n : Nat) : t.memRead b i n = s.memRead b i n :=
  State.memRead_congr t s b b i i n fun _ _ => State.byteOf_congr hm he _

/-! ### The header commands -/

/-- The writes of a HDRPACK with its result (R69). -/
def State.finishHdrpack (s : State) : Result ErrorKind Half → State
  | .ok hdr => { s with rHdr := hdr }.setStatus statusSuccess
  | .err e => s.raise .hdrpack e

theorem exec_hdrpack (s : State) :
    exec .hdrpack s = .next (s.finishHdrpack (packHeader s.cfg s.aType s.aLen.toNat)) := by
  simp only [exec, execHdrpack]
  cases packHeader s.cfg s.aType s.aLen.toNat <;> rfl

theorem hdrpack_again {s t : State} (h : exec .hdrpack s = .next t) : exec .hdrpack t = .next t :=
  exec_again _ State.finishHdrpack exec_hdrpack (fun _ r => by cases r <;> rfl) (fun _ r => by cases r <;> rfl) h

/-- The writes of a HDRUNPK with its result (R70). -/
def State.finishHdrunpk (s : State) : Result ErrorKind (FrameType × Nat) → State
  | .ok (ty, declared) => { s with rType := ty, rLen := BitVec.ofNat 16 declared }.setStatus statusSuccess
  | .err e => s.raise .hdrunpk e

theorem exec_hdrunpk (s : State) : exec .hdrunpk s = .next (s.finishHdrunpk (unpackHeader s.cfg s.aHdr)) := by
  simp only [exec, execHdrunpk]
  cases unpackHeader s.cfg s.aHdr <;> rfl

theorem hdrunpk_again {s t : State} (h : exec .hdrunpk s = .next t) : exec .hdrunpk t = .next t :=
  exec_again _ State.finishHdrunpk exec_hdrunpk (fun _ r => by cases r <;> rfl) (fun _ r => by cases r <;> rfl) h

/-! ### The frame commands: ENC reads IBUF and stores in OBUF, DEC reads IBUF and stores in BBUF -/

/-- The writes of an ENC with its result (R77). -/
def State.finishEnc (s : State) : Result ErrorKind (List Byte) → State
  | .ok bytes => ({ s with olen := BitVec.ofNat 16 bytes.length }.memWrite .obuf 0 bytes).setStatus statusSuccess
  | .err e => s.raise .enc e

theorem exec_enc (s : State) :
    exec .enc s = .next (s.finishEnc (encodeFrame s.cfg s.aType s.aCode (s.memRead .ibuf 0 s.ilen.toNat))) := by
  simp only [exec, execEnc]
  cases encodeFrame s.cfg s.aType s.aCode (s.memRead .ibuf 0 s.ilen.toNat) <;> rfl

/-- What the writes of a successful ENC leave (R77). -/
theorem State.finishEnc_ok (s : State) (bytes : List Byte) :
    s.finishEnc (.ok bytes) = { s with
      obuf := Memory.putAll s.obuf 0 bytes, olen := BitVec.ofNat 16 bytes.length, status := statusSuccess } := rfl

theorem State.finishEnc_finishEnc (s : State) (r : Result ErrorKind (List Byte)) :
    (s.finishEnc r).finishEnc r = s.finishEnc r := by
  cases r with
  | ok bytes => simp only [State.finishEnc_ok, Memory.putAll_putAll]
  | err e => rfl

theorem enc_again {s t : State} (h : exec .enc s = .next t) : exec .enc t = .next t := by
  refine exec_again _ State.finishEnc exec_enc (fun s r => ?_) State.finishEnc_finishEnc h
  cases r <;> exact congrArg (encodeFrame s.cfg s.aType s.aCode)
    (State.memRead_of_memoryOf_eq s (s.finishEnc _) rfl rfl 0 s.ilen.toNat)

theorem State.finishDec_finishDec (s : State) (r : Result ErrorKind DecodedFrame) :
    (s.finishDec r).finishDec r = s.finishDec r := by
  cases r with
  | ok f => simp only [State.finishDec_ok, Memory.putAll_putAll]
  | err e => rfl

theorem dec_again {s t : State} (h : exec .dec s = .next t) : exec .dec t = .next t := by
  refine exec_again (fun s => decodeFrame s.cfg (s.memRead .ibuf 0 s.ilen.toNat)) State.finishDec (fun _ => rfl)
    (fun s r => ?_) State.finishDec_finishDec h
  cases r <;> exact congrArg (decodeFrame s.cfg)
    (State.memRead_of_memoryOf_eq s (s.finishDec _) rfl rfl 0 s.ilen.toNat)

/-! ### SMPSTART -/

theorem smpstart_again {s t : State} (h : exec .smpstart s = .next t) : exec .smpstart t = .next t := by
  refine exec_again (fun s => s.aWidth.toNat) State.startSequence (fun _ => rfl) (fun s w => ?_) (fun s w => ?_) h
  · rcases s.startSequence_cases w with ⟨k, -, e⟩ | ⟨-, e⟩ <;> rw [e]
  · unfold State.startSequence
    cases strideOf w <;> rfl

/-- Settles O56: none of the five writes what it reads, and the writes of each, made again, change nothing. -/
theorem repeatingACommandChangesNothing : Obligations.RepeatingACommandChangesNothing := by
  intro i s t hi h
  simp only [List.mem_cons, List.not_mem_nil, or_false] at hi
  rcases hi with rfl | rfl | rfl | rfl | rfl
  · exact hdrpack_again h
  · exact hdrunpk_again h
  · exact enc_again h
  · exact dec_again h
  · exact smpstart_again h

end Sys2Proof.Machine

/-! ## The encoding (30_encoding.md): the three formats and their rows, loading a buffer, the round trip on the
machine, and the statements they settle -/

namespace Sys2Proof.Machine

/-! ### Format by format, the word of a row and the row of a word (R57, R58, R59) -/

/-- A header decodes to the row of its two fields (R57). -/
@[simp] theorem decodeHeader_mkHeader (t : FrameType) (lenf : LenField) :
    decodeHeader (mkHeader t lenf) = headerRow t lenf := by
  simp [decodeHeader]

theorem encode_of_headerFields {i : Instr} {t : FrameType} {lenf : LenField}
    (h : i.headerFields = some (t, lenf)) : encode i = .hdr16 (mkHeader t lenf) := by
  cases i <;> cases h <;> rfl

theorem encode_of_sampleWidth {i : Instr} {w : Byte} (h : i.sampleWidth = some w) : encode i = .width8 w := by
  cases i <;> cases h <;> rfl

theorem encode_decodeCmd (op : BitVec 3) : encode (decodeCmd op) = .cmd op := by
  revert op
  decide

/-- Every header is the word of the row it decodes to (R57). -/
theorem encode_decodeHeader (hdr : Half) : encode (decodeHeader hdr) = .hdr16 hdr := by
  rw [decodeHeader, encode_of_headerFields (headerFields_headerRow ..), mkHeader_fields]

/-- The widths of the WIDTH8 rows are the four legal ones (R59). -/
theorem sampleWidth_mem {i : Instr} {w : Byte} (h : i.sampleWidth = some w) :
    w ∈ ([0x08, 0x10, 0x18, 0x20] : List Byte) := by
  cases i <;> cases h <;> decide

/-- No legal width is a command code in one byte (log entry 5). -/
theorem eight_le_of_decodeWidth {w : Byte} {i : Instr} (h : decodeWidth w = .ok i) : 8 ≤ w.toNat := by
  have hlegal : ∀ w ∈ ([0x08, 0x10, 0x18, 0x20] : List Byte), 8 ≤ w.toNat := by decide
  exact hlegal w (sampleWidth_mem (sampleWidth_of_decodeWidth h))

/-- A word that decodes at all is the word of its instruction (R66). -/
theorem encode_of_decodeWord {w : TableWord} {i : Instr} (h : decodeWord w = .ok i) : encode i = w := by
  cases w with
  | cmd op => cases h; exact encode_decodeCmd op
  | hdr16 hdr => cases h; exact encode_decodeHeader hdr
  | width8 w => exact encode_of_sampleWidth (sampleWidth_of_decodeWidth h)

/-- The word of every instruction decodes to it: a CMD or WIDTH8 row is one fixed word, an HDR16 row has one for
each length field (R57, R58, R59). -/
theorem decodeWord_encode (i : Instr) : decodeWord (encode i) = .ok i := by
  cases h : i.headerFields with
  | some f =>
    rw [encode_of_headerFields h, decodeWord, decodeHeader_mkHeader, ← eq_headerRow_of_headerFields i f.1 f.2 h]
  | none => cases i <;> cases h <;> rfl

/-- The byte decoder reads a word that decodes, laid out in bytes, as its own format does (R51; log entry 5). -/
theorem decodeBytes_bytes {w : TableWord} {i : Instr} (h : decodeWord w = .ok i) : decodeBytes w.bytes = .ok i := by
  cases w with
  | cmd op =>
    have hcmd : ∀ op : BitVec 3, decodeBytes [op.setWidth 8] = decodeWord (.cmd op) := by decide
    exact (hcmd op).trans h
  | hdr16 hdr =>
    rw [TableWord.bytes, decodeBytes, le16_lo_hi, h]
  | width8 w =>
    have hw := eight_le_of_decodeWidth h
    rw [TableWord.bytes, decodeBytes, if_neg (Nat.not_lt.2 hw), h]

theorem decodeBytes_encodeBytes (i : Instr) : decodeBytes (encodeBytes i) = .ok i :=
  decodeBytes_bytes (decodeWord_encode i)

/-- Settles O1: the three formats one by one, in words and in bytes. -/
theorem decodeOfEncodeIsTheInstruction : Obligations.DecodeOfEncodeIsTheInstruction :=
  fun i => ⟨decodeWord_encode i, decodeBytes_encodeBytes i⟩

/-- Settles O2: an instruction is what the decoder reads from its word, and from its bytes. -/
theorem noTwoRowsShareAWord : Obligations.NoTwoRowsShareAWord := by
  refine ⟨fun w i => encode_of_decodeWord, fun i j h => ?_, fun i j h => ?_⟩
  · have hj := decodeWord_encode j
    rw [← h, decodeWord_encode i] at hj
    exact Result.ok.inj hj
  · have hj := decodeBytes_encodeBytes j
    rw [← h, decodeBytes_encodeBytes i] at hj
    exact Result.ok.inj hj

/-- Settles O3. -/
theorem writtenOutWordsDecode : Obligations.WrittenOutWordsDecode := by
  unfold Obligations.WrittenOutWordsDecode
  decide

/-- A width with no row is refused by name (R62). -/
theorem decodeWidth_err {w : Byte} {e : Reject} (h : decodeWidth w = .err e) : e = .unsupportedWidth := by
  unfold decodeWidth at h
  split at h <;> cases h
  rfl

/-- Settles O4: a width that decodes is the width of its row. -/
theorem fourOf256WidthsHaveARow : Obligations.FourOf256WidthsHaveARow := by
  have hlegal : ∀ w ∈ ([0x08, 0x10, 0x18, 0x20] : List Byte), decodeWidth w ≠ .err .unsupportedWidth := by decide
  intro w
  cases h : decodeWidth w with
  | ok i =>
    have hi := sampleWidth_of_decodeWidth h
    exact ⟨fun _ => ⟨i, rfl, hi⟩, fun hw => absurd (sampleWidth_mem hi) hw⟩
  | err e =>
    obtain rfl := decodeWidth_err h
    exact ⟨fun hw => absurd h (hlegal w hw), fun _ => rfl⟩

/-! ### The row a code selects acts as the command (R65, R66) -/

/-- A WIDTH8 row is SMPSTART after a write of its width to `A_WIDTH` (R65; log entry 7). -/
theorem exec_of_sampleWidth {i : Instr} {w : Byte} (h : i.sampleWidth = some w) (s : State) :
    exec i s = exec .smpstart { s with aWidth := w } := by
  cases i <;> cases h <;> rfl

/-- SMPSTART on a legal width starts a sequence (R94). -/
theorem exec_smpstart_of_strideOf {s : State} {k : Nat} (h : strideOf s.aWidth.toNat = .ok k) :
    exec .smpstart s = .next { s with
      sActive := 1, sStride := BitVec.ofNat 3 k, sPos := 0, rSample := 0, status := 0x01 } := by
  rcases s.startSequence_cases s.aWidth.toNat with ⟨j, hj, e⟩ | ⟨he, -⟩
  · obtain rfl := Result.ok.inj (hj.symm.trans h)
    exact congrArg Host.Outcome.next e
  · rw [he] at h
    cases h

/-- What a WIDTH8 row leaves: its width in `A_WIDTH` and a sequence started (R65, R94). -/
theorem exec_smpstartRow {i : Instr} {w : Byte} {k : Nat} (hi : i.sampleWidth = some w)
    (hk : strideOf w.toNat = .ok k) (s : State) :
    exec i s = .next { s with
      aWidth := w, sActive := 1, sStride := BitVec.ofNat 3 k, sPos := 0, rSample := 0, status := 0x01 } :=
  (exec_of_sampleWidth hi s).trans (exec_smpstart_of_strideOf hk)

/-- Settles O37: each row on its own width, whose stride is known. -/
theorem smpstartAtEachLegalWidth : Obligations.SmpstartAtEachLegalWidth := fun s =>
  ⟨exec_smpstartRow rfl rfl s, exec_smpstartRow rfl rfl s, exec_smpstartRow rfl rfl s, exec_smpstartRow rfl rfl s⟩

/-- The row a code selects does what the command of that code does (R65, R66, R81, R94). -/
theorem exec_issuedRow (s : State) (op : BitVec 3) : exec (s.issuedRow op) s = exec (decodeCmd op) s := by
  by_cases h3 : op = 3
  · subst h3
    rcases Nat.lt_or_ge s.ilen.toNat 2 with h | h
    · rw [s.issuedRow_dec_of_short h]
      rfl
    · rw [s.issuedRow_dec_of_header h, decodeHeader, exec_of_headerFields _ s _ _ (headerFields_headerRow ..)]
      exact (exec_dec s).symm
  by_cases h4 : op = 4
  · subst h4
    cases h : decodeWidth s.aWidth with
    | ok i =>
      rw [s.issuedRow_smpstart_of_ok h]
      exact exec_of_sampleWidth (sampleWidth_of_decodeWidth h) s
    | err e =>
      rw [s.issuedRow_smpstart_of_err h]
      rfl
  · rw [s.issuedRow_own h3 h4]

/-- Settles O6: DEC on the header in IBUF, SMPSTART on the width in `A_WIDTH`, every other code its own row. -/
theorem issuedRowAgreesWithTheCommand : Obligations.IssuedRowAgreesWithTheCommand := exec_issuedRow

/-! ### Loading a buffer (R64) -/

/-- What LD IBUF leaves: the bytes from index 0 of IBUF, their count in ILEN (R64). -/
def State.loadIbuf (s : State) (bytes : List Byte) : State :=
  { s with ibuf := Memory.putAll s.ibuf 0 bytes, ilen := BitVec.ofNat 16 bytes.length }

/-- What LD BBUF leaves: the bytes from index 0 of BBUF, their count in BLEN, and no sequence (R64, R25). -/
def State.loadBbuf (s : State) (bytes : List Byte) : State :=
  { s.endSequence with bbuf := Memory.putAll s.bbuf 0 bytes, blen := BitVec.ofNat 16 bytes.length }

/-- The host's stores and its write of a length register are one `MemWrite` and that write, when storing a byte
before a block is storing the longer block. -/
theorem runScript_storeActions (b : Buf) (r : Reg) (x : BitVec r.width)
    (hstore : ∀ (s : State) (i : Nat) (v : Byte) (vs : List Byte),
      ((s.hostWriteByte b i v).memWrite b (i + 1) vs).hostWrite r x = (s.memWrite b i (v :: vs)).hostWrite r x)
    (s : State) (i : Nat) (bytes : List Byte) (h : i + bytes.length ≤ 65535) :
    runScript (storeActions b i bytes ++ [.write r x]) s =
      .next (((s.memWrite b i bytes).hostWrite r x).withPending []) := by
  induction bytes generalizing s i with
  | nil =>
    have hnil : s.memWrite b i [] = s := by cases b <;> rfl
    rw [hnil]
    exact runScript_cons ..
  | cons v vs ih =>
    rw [List.length_cons] at h
    have hi : perform s (.writeByte b (Fin.ofNat 65535 i) v) = .next (s.hostWriteByte b i v) := by
      simp only [perform, Fin.val_ofNat, Nat.mod_eq_of_lt (show i < 65535 by omega)]
    rw [storeActions, List.cons_append, runScript_cons, hi, ← hstore]
    exact ih _ (i + 1) (by omega)

theorem runScript_ldIbuf (s : State) {bytes : List Byte} (h : bytes.length ≤ 65535) :
    runScript (ldIbuf bytes) s = .next ((s.loadIbuf bytes).withPending []) :=
  runScript_storeActions .ibuf .ilen _ (fun _ _ _ _ => rfl) s 0 bytes (by omega)

theorem runScript_ldBbuf (s : State) {bytes : List Byte} (h : bytes.length ≤ 65535) :
    runScript (ldBbuf bytes) s = .next ((s.loadBbuf bytes).withPending []) :=
  runScript_storeActions .bbuf .blen _ (fun _ _ _ _ => rfl) s 0 bytes (by omega)

/-- A count of at most NMAX bytes fits a length register (R18). -/
theorem toNat_ofNat_of_le_nmax {n : Nat} (h : n ≤ 65535) : (BitVec.ofNat 16 n).toNat = n := by
  rw [BitVec.toNat_ofNat]
  omega

section Stored

variable {s t : State} {b : Buf} {bytes : List Byte}

/-- The bytes of a buffer that holds what `s` held with a block stored from index 0 (R27, R41). -/
theorem State.byteOf_stored (hm : t.memoryOf b = Memory.putAll (s.memoryOf b) 0 bytes) (he : t.epoch = s.epoch)
    (k : Nat) : t.byteOf b k = if k < bytes.length then (bytes[k]?).getD 0 else s.byteOf b k := by
  have hw : t.byteOf b k = (s.memWrite b 0 bytes).byteOf b k :=
    State.byteOf_congr (hm.trans (State.memoryOf_setMemory ..).symm) (he.trans (State.setMemory_epoch ..).symm) k
  simpa using hw.trans (s.byteOf_memWrite b b 0 k bytes)

/-- A stored block reads back over the length register that counts it (R9, R18). -/
theorem State.memRead_stored (hm : t.memoryOf b = Memory.putAll (s.memoryOf b) 0 bytes) (he : t.epoch = s.epoch)
    (h : bytes.length ≤ 65535) : t.memRead b 0 (BitVec.ofNat 16 bytes.length).toNat = bytes := by
  rw [toNat_ofNat_of_le_nmax h]
  exact t.memRead_eq_of_bytes b 0 bytes fun k hk => by simp [State.byteOf_stored hm he, hk]

/-- Bytes beyond a stored block are as before (R41). -/
theorem State.byteOf_beyond_stored {k : Nat} (hk : bytes.length ≤ k)
    (hm : t.memoryOf b = Memory.putAll (s.memoryOf b) 0 bytes) (he : t.epoch = s.epoch) :
    t.byteOf b k = s.byteOf b k := by
  rw [State.byteOf_stored hm he, if_neg (Nat.not_lt.2 hk)]

end Stored

/-- Settles O9: the host's stores are one `MemWrite` and one write of the length register. -/
theorem loadingABufferStoresTheBytes : Obligations.LoadingABufferStoresTheBytes := by
  intro s bytes h
  have hlen := toNat_ofNat_of_le_nmax h
  constructor
  · exact ⟨(s.loadIbuf bytes).withPending [], runScript_ldIbuf s h, rfl, hlen,
      State.memRead_stored (s := s) rfl rfl h, fun _ hk => State.byteOf_beyond_stored hk rfl rfl⟩
  · exact ⟨(s.loadBbuf bytes).withPending [], runScript_ldBbuf s h, rfl, hlen,
      State.memRead_stored (s := s) rfl rfl h, fun _ hk => State.byteOf_beyond_stored hk rfl rfl⟩

/-! ### A frame that was encoded decodes (R71, R85) -/

section RoundTrip

variable {cfg : Config} {t : FrameType}

theorem declaredLength_sentinel (hd : isData cfg t = true) (hc : 2 ≤ cfg.cap) :
    declaredLength cfg t 0 = .ok cfg.cap := by
  simp only [declaredLength, announcedLength, if_pos, hd]
  exact if_neg (by omega)

theorem declaredLength_of_bounds {lenf : LenField} (h2 : 2 ≤ lenf.toNat) (hc : lenf.toNat ≤ cfg.cap) :
    declaredLength cfg t lenf = .ok lenf.toNat := by
  have h0 : lenf ≠ 0 := by rintro rfl; exact absurd h2 (by decide)
  simp only [declaredLength, announcedLength, if_neg h0]
  exact if_neg (by omega)

/-- A packed header has the type and declares the total it was packed from (R71). -/
theorem declaredLength_of_packHeader {total : Nat} {hdr : Half} (h : packHeader cfg t total = .ok hdr) :
    headerType hdr = t ∧ declaredLength cfg t (headerLenf hdr) = .ok total := by
  rcases packHeader_cases cfg t total with ⟨h2, rfl, hd, e⟩ | ⟨h2, hc, hmax, -, e⟩ | ⟨-, e⟩ <;>
    rw [e] at h <;> cases h
  · exact ⟨headerType_mkHeader .., by rw [headerLenf_mkHeader]; exact declaredLength_sentinel hd h2⟩
  · have hlenf : (BitVec.ofNat 13 total).toNat = total := by rw [BitVec.toNat_ofNat]; omega
    refine ⟨headerType_mkHeader .., ?_⟩
    rw [headerLenf_mkHeader, declaredLength_of_bounds (by omega) (by omega), hlenf]

/-- A total within the bounds of R76 packs (R67). -/
theorem exists_packHeader {total : Nat} (h2 : 2 ≤ total)
    (hmax : total ≤ min cfg.cap 8191 ∨ total = cfg.cap ∧ isData cfg t = true) :
    ∃ hdr, packHeader cfg t total = .ok hdr := by
  rcases packHeader_cases cfg t total with ⟨-, -, -, e⟩ | ⟨-, -, -, -, e⟩ | ⟨hbad, -⟩
  · exact ⟨_, e⟩
  · exact ⟨_, e⟩
  · rcases hmax with hmax | hdata
    · omega
    · have htotal := hdata.1
      rcases hbad with hbad | hbad | ⟨-, hbad⟩
      · omega
      · omega
      · exact absurd hdata hbad

variable {code : Half} {payload frame : List Byte}

theorem exists_encodeFrame (code : Half)
    (hmax : 4 + payload.length ≤ min cfg.cap 8191 ∨ 4 + payload.length = cfg.cap ∧ isData cfg t = true) :
    ∃ frame, encodeFrame cfg t code payload = .ok frame := by
  obtain ⟨hdr, h⟩ := exists_packHeader (by omega) hmax
  exact ⟨_, encodeFrame_of_ok cfg t code hdr payload h⟩

/-- The inversion of `encodeFrame`: its header packs, and the frame is laid out as R75 says. -/
theorem eq_of_encodeFrame (h : encodeFrame cfg t code payload = .ok frame) :
    ∃ hdr, packHeader cfg t (4 + payload.length) = .ok hdr ∧
      frame = loByte hdr :: hiByte hdr :: loByte code :: hiByte code :: payload := by
  cases hp : packHeader cfg t (4 + payload.length) with
  | ok hdr =>
    rw [encodeFrame_of_ok cfg t code hdr payload hp] at h
    exact ⟨hdr, rfl, (Result.ok.inj h).symm⟩
  | err e =>
    rw [encodeFrame_of_err cfg t code payload e hp] at h
    cases h

/-- A frame that was encoded is four bytes longer than its payload and at most CAP long (R75). -/
theorem length_of_encodeFrame (h : encodeFrame cfg t code payload = .ok frame) :
    frame.length = 4 + payload.length ∧ frame.length ≤ cfg.cap := by
  obtain ⟨hdr, hp, rfl⟩ := eq_of_encodeFrame h
  have hc := (packHeader_bounds _ _ _ _ hp).2
  simp only [List.length_cons]
  omega

/-- Decoding a frame that was encoded reaches step (7) with its type, total, code and payload (R85). -/
theorem decodeFrame_of_encodeFrame (h : encodeFrame cfg t code payload = .ok frame) :
    decodeFrame cfg frame = decodeVariant cfg t (4 + payload.length) code payload := by
  obtain ⟨hdr, hp, rfl⟩ := eq_of_encodeFrame h
  obtain ⟨htype, hdecl⟩ := declaredLength_of_packHeader hp
  have hn : (loByte code :: hiByte code :: payload).length + 2 = 4 + payload.length := by
    simp only [List.length_cons]
    omega
  rw [decodeFrame, le16_lo_hi, htype, hn, decodeHeaded_of_declared _ _ _ _ _ _ _ hdecl, le16_lo_hi]

end RoundTrip

/-! ### The pseudo-instructions ENC and DEC (R65), and the round trip on the machine -/

/-- A run that goes on from a state looks at none of its pending actions. -/
theorem thenRun_withPending (s : State) (p as : List HostAction) :
    thenRun (.next (s.withPending p)) (runScript as) = runScript as s := rfl

/-- Issuing a code alone is one `exec` of its command. -/
theorem runScript_issue {s t : State} {op : BitVec 3} (h : exec (decodeCmd op) s = .next t) :
    runScript [.issue op] s = .next (t.withPending []) := by
  have hp : perform s (.issue op) = .next t := (exec_issuedRow s op).trans h
  rw [runScript_cons, hp]
  rfl

/-- ENC of the payload that IBUF holds (R77). -/
theorem exec_enc_of_encodeFrame {s : State} {payload : List Byte} {r : Result ErrorKind (List Byte)}
    (hread : s.memRead .ibuf 0 s.ilen.toNat = payload) (hr : encodeFrame s.cfg s.aType s.aCode payload = r) :
    exec .enc s = .next (s.finishEnc r) := by
  rw [exec_enc, hread, hr]

/-- DEC of the frame that IBUF holds (R81). -/
theorem exec_dec_of_decodeFrame {s : State} {msg : List Byte} {r : Result ErrorKind DecodedFrame}
    (hread : s.memRead .ibuf 0 s.ilen.toNat = msg) (hr : decodeFrame s.cfg msg = r) :
    exec .dec s = .next (s.finishDec r) := by
  rw [← hr, ← hread]
  rfl

/-- What the host sets up for ENC: the payload in IBUF, the type and the code (R65). -/
def State.loadEnc (s : State) (ty : FrameType) (code : Half) (payload : List Byte) : State :=
  { s.loadIbuf payload with aType := ty, aCode := code }

/-- `ENC.CTL` and `ENC.DAT` encode the payload they name (R65, R77). -/
theorem runScript_encLine (s : State) {ty : FrameType} {code : Half} {payload : List Byte}
    {r : Result ErrorKind (List Byte)} (h : payload.length ≤ 65535)
    (hr : encodeFrame s.cfg ty code payload = r) :
    runScript (encLine ty code payload) s = .next (((s.loadEnc ty code payload).finishEnc r).withPending []) := by
  have henc : exec .enc (s.loadEnc ty code payload) = .next ((s.loadEnc ty code payload).finishEnc r) :=
    exec_enc_of_encodeFrame (State.memRead_stored (s := s) rfl rfl h) hr
  rw [encLine, runScript_append, runScript_ldIbuf s h, thenRun_withPending, runScript_cons]
  exact (runScript_cons ..).trans (runScript_issue henc)

/-- `DEC` decodes the bytes it names (R65, R81). -/
theorem runScript_decLine (s : State) {msg : List Byte} {r : Result ErrorKind DecodedFrame}
    (h : msg.length ≤ 65535) (hr : decodeFrame s.cfg msg = r) :
    runScript (decLine msg) s = .next (((s.loadIbuf msg).finishDec r).withPending []) := by
  have hdec : exec .dec (s.loadIbuf msg) = .next ((s.loadIbuf msg).finishDec r) :=
    exec_dec_of_decodeFrame (State.memRead_stored (s := s) rfl rfl h) hr
  rw [decLine, runScript_append, runScript_ldIbuf s h, thenRun_withPending]
  exact runScript_issue hdec

/-- Copying OBUF after a successful ENC loads the frame (R64, R77). -/
theorem cpIbufObuf_finishEnc (s : State) (p : List HostAction) {frame : List Byte} (h : frame.length ≤ 65535) :
    cpIbufObuf ((s.finishEnc (.ok frame)).withPending p) = ldIbuf frame :=
  congrArg ldIbuf (State.memRead_stored (s := s) (b := .obuf) rfl rfl h)

/-- What DEC leaves of a frame that reached step (7), when its code is one that the class of its type admits
(R81 to R83). -/
theorem State.finishDec_decodeVariant {s u : State} {cfg : Config} {ty : FrameType} {n : Nat} {code : Half}
    {body : List Byte} (hu : s.finishDec (decodeVariant cfg ty n code body) = u)
    (hcode : isData cfg ty = true ∨ isItem cfg code = true) (hbody : body.length ≤ 65535) :
    u.status = 0x01 ∧ u.rType = ty ∧ u.rLen = BitVec.ofNat 16 n ∧
      (if isData cfg ty then u.rItemV = 0 ∧ u.rItem = 0 ∧ u.rSeqV = 1 ∧ u.rSeq = code
        else u.rItemV = 1 ∧ u.rItem = code ∧ u.rSeqV = 0 ∧ u.rSeq = 0) ∧
      u.blen = BitVec.ofNat 16 body.length ∧ u.memRead .bbuf 0 u.blen.toNat = body := by
  rcases decodeVariant_cases cfg ty n code body with ⟨hd, e⟩ | ⟨hd, -, e⟩ | ⟨hd, hi, -⟩
  · rw [e, State.finishDec_ok] at hu
    subst hu
    rw [if_pos hd]
    exact ⟨rfl, rfl, rfl, ⟨rfl, rfl, rfl, rfl⟩, rfl, State.memRead_stored (s := s) rfl rfl hbody⟩
  · rw [e, State.finishDec_ok] at hu
    subst hu
    rw [if_neg (Bool.not_eq_true _ ▸ hd)]
    exact ⟨rfl, rfl, rfl, ⟨rfl, rfl, rfl, rfl⟩, rfl, State.memRead_stored (s := s) rfl rfl hbody⟩
  · simp [hd, hi] at hcode

/-- Settles O27: ENC stores a frame, CP and DEC are DEC of that frame, and step (7) answers by the class of the
type. -/
theorem encodeCopyDecodeRoundTrip : Obligations.EncodeCopyDecodeRoundTrip := by
  intro s ty code payload ⟨_, hcap, _⟩ hfits hcode
  obtain ⟨frame, hframe⟩ := exists_encodeFrame code hfits
  obtain ⟨hlen, hmax⟩ := length_of_encodeFrame hframe
  have hn : frame.length ≤ 65535 := Nat.le_trans hmax hcap
  have hm : payload.length ≤ 65535 := by omega
  have hencode := runScript_encLine s hm hframe
  generalize ht : ((s.loadEnc ty code payload).finishEnc (.ok frame)).withPending [] = t at hencode
  have hcopy : cpIbufObuf t ++ [.issue 3] = decLine frame := by
    rw [← ht, cpIbufObuf_finishEnc _ [] hn, decLine]
  have hround : decodeFrame t.cfg frame = decodeVariant s.cfg ty (4 + payload.length) code payload := by
    rw [← ht]
    exact decodeFrame_of_encodeFrame hframe
  have hdecode := runScript_decLine t hn hround
  generalize hu : (t.loadIbuf frame).finishDec (decodeVariant s.cfg ty _ code payload) = u at hdecode
  obtain ⟨hstatus, htype, hrlen, hvariant, hblen, hbody⟩ := State.finishDec_decodeVariant hu hcode hm
  refine ⟨t, u.withPending [], hencode, ht ▸ rfl, ?_, hcopy ▸ hdecode, hstatus, htype, ?_, hvariant, ?_, ?_⟩
  · rw [← ht, ← hlen]
    exact toNat_ofNat_of_le_nmax hn
  · exact (congrArg _ hrlen).trans (toNat_ofNat_of_le_nmax (by omega))
  · exact (congrArg _ hblen).trans (toNat_ofNat_of_le_nmax hm)
  · exact (State.withPending_memRead ..).trans hbody

end Sys2Proof.Machine

/-! ## Headers (40_header.md): the header functions case by case, each the inverse of the other (R71, R72), the
commands HDRPACK and HDRUNPK, and the statements they settle -/

namespace Sys2Proof.Machine

/-! ### `packHeader` case by case (R67) -/

section Pack

variable {cfg : Config} {t : FrameType} {total : Nat}

theorem packHeader_sentinel (h2 : 2 ≤ total) (hcap : total = cfg.cap) (hdata : isData cfg t = true) :
    packHeader cfg t total = .ok (mkHeader t 0) :=
  (if_neg (by omega)).trans (if_pos ⟨hcap, hdata⟩)

theorem packHeader_literal (h2 : 2 ≤ total) (hcap : total ≤ cfg.cap) (hmax : total ≤ 8191)
    (hne : ¬ (total = cfg.cap ∧ isData cfg t = true)) :
    packHeader cfg t total = .ok (mkHeader t (BitVec.ofNat 13 total)) :=
  (if_neg (by omega)).trans ((if_neg hne).trans (if_pos hmax))

theorem packHeader_of_out_of_bounds (h : total < 2 ∨ cfg.cap < total) : packHeader cfg t total = .err .framing :=
  if_pos h

/-- A total that the length field cannot hold packs only as the sentinel. -/
theorem packHeader_of_too_long (hmax : 8191 < total) (hne : ¬ (total = cfg.cap ∧ isData cfg t = true)) :
    packHeader cfg t total = .err .framing := by
  rcases packHeader_cases cfg t total with ⟨-, hcap, hdata, -⟩ | ⟨-, -, hle, -, -⟩ | ⟨-, e⟩
  · exact absurd ⟨hcap, hdata⟩ hne
  · omega
  · exact e

end Pack

/-! ### `unpackHeader` by the fields of the header (R68) -/

section Unpack

variable {cfg : Config} {hdr : Half}

theorem unpackHeader_of_declared {d : Nat} (h : declaredLength cfg (headerType hdr) (headerLenf hdr) = .ok d) :
    unpackHeader cfg hdr = .ok (headerType hdr, d) :=
  (unpackHeader_eq ..).2 ⟨rfl, h⟩

/-- The three illegal headers of R61. -/
theorem unpackHeader_of_illegal (h : illegalHeader cfg hdr) : unpackHeader cfg hdr = .err .framing := by
  unfold unpackHeader
  rcases declaredLength_cases cfg (headerType hdr) (headerLenf hdr) with
    ⟨h0, hdata, hcap, -⟩ | ⟨h2, hcap, -⟩ | ⟨-, e⟩
  · simp [illegalHeader, h0, hdata] at h
  · rcases h with ⟨h0, -⟩ | h1 | ⟨-, hlt⟩
    · rw [h0] at h2
      exact absurd h2 (by decide)
    · rw [h1] at h2
      exact absurd h2 (by decide)
    · omega
  · rw [e]

end Unpack

/-! ### Each header function undoes the other (R71, R72) -/

section Inverse

variable {cfg : Config} {hdr : Half} {t : FrameType} {d : Nat}

/-- The one kind of header that packing does not give back (R72): `CAP` written out in the length field of a
data-bearing type, where packing writes the sentinel. -/
def literalCap (cfg : Config) (t : FrameType) (hdr : Half) : Prop :=
  cfg.cap ≤ 8191 ∧ isData cfg t = true ∧ (headerLenf hdr).toNat = cfg.cap

theorem not_literalCap_of_large (hcap : 8192 ≤ cfg.cap) : ¬ literalCap cfg t hdr := by
  rintro ⟨hsmall, -, -⟩
  omega

theorem packHeader_of_literalCap (h : unpackHeader cfg hdr = .ok (t, d)) (hlit : literalCap cfg t hdr) :
    packHeader cfg t d = .ok (mkHeader t 0) := by
  obtain ⟨-, hd⟩ := (unpackHeader_eq ..).1 h
  obtain ⟨-, hdata, hlenf⟩ := hlit
  rcases declaredLength_cases cfg t (headerLenf hdr) with ⟨-, -, h2, e⟩ | ⟨h2, -, e⟩ | ⟨-, e⟩ <;>
    rw [e] at hd <;> cases hd
  · exact packHeader_sentinel h2 rfl hdata
  · exact packHeader_sentinel h2 hlenf hdata

theorem packHeader_of_unpackHeader (h : unpackHeader cfg hdr = .ok (t, d)) (hlit : ¬ literalCap cfg t hdr) :
    packHeader cfg t d = .ok hdr := by
  obtain ⟨rfl, hd⟩ := (unpackHeader_eq ..).1 h
  have hmax := (headerLenf hdr).isLt
  rcases declaredLength_cases cfg (headerType hdr) (headerLenf hdr) with
    ⟨h0, hdata, h2, e⟩ | ⟨h2, hcap, e⟩ | ⟨-, e⟩ <;>
    rw [e] at hd <;> cases hd
  · rw [packHeader_sentinel h2 rfl hdata, ← h0, mkHeader_fields]
  · have hne : ¬ ((headerLenf hdr).toNat = cfg.cap ∧ isData cfg (headerType hdr) = true) :=
      fun ⟨hlenf, hdata⟩ => hlit ⟨by omega, hdata, hlenf⟩
    rw [packHeader_literal h2 hcap (by omega) hne, BitVec.ofNat_toNat, BitVec.setWidth_eq, mkHeader_fields]

end Inverse

/-- Settles O16: the type of a packed header is read back, and its length field declares the total. -/
theorem unpackRecoversWhatPackWrote : Obligations.UnpackRecoversWhatPackWrote :=
  fun _ _ _ _ _ h => (unpackHeader_eq ..).2 (declaredLength_of_packHeader h)

/-- Settles O17: packing gives back every header but a literal `CAP`, and with `CAP` at least 8192 there is none. -/
theorem packRecoversWhatUnpackRead : Obligations.PackRecoversWhatUnpackRead := by
  refine fun cfg _ => ⟨fun hdr t d h => ?_, fun hcap h k p hh hk => ?_⟩
  · by_cases hlit : literalCap cfg t hdr
    · exact ⟨_, packHeader_of_literalCap h hlit, fun hn => absurd hlit hn, fun _ => rfl⟩
    · exact ⟨_, packHeader_of_unpackHeader h hlit, fun _ => rfl, fun hl => absurd hl hlit⟩
  · have hpack := packHeader_of_unpackHeader hh (not_literalCap_of_large hcap)
    rw [packHeader_of_unpackHeader hk (not_literalCap_of_large hcap)] at hpack
    exact (Result.ok.inj hpack).symm

/-! ### HDRPACK and HDRUNPK (R69, R70) -/

theorem exec_hdrpack_ok {s : State} {hdr : Half} (h : packHeader s.cfg s.aType s.aLen.toNat = .ok hdr) :
    exec .hdrpack s = .next { s with rHdr := hdr, status := 0x01 } := by
  rw [exec_hdrpack, h]
  rfl

theorem exec_hdrpack_err {s : State} (h : packHeader s.cfg s.aType s.aLen.toNat = .err .framing) :
    exec .hdrpack s = .next { s with rHdr := 0, status := 0x04 } := by
  rw [exec_hdrpack, h]
  rfl

theorem exec_hdrunpk_ok {s : State} {d : Nat}
    (h : declaredLength s.cfg (headerType s.aHdr) (headerLenf s.aHdr) = .ok d) :
    exec .hdrunpk s = .next { s with rType := headerType s.aHdr, rLen := BitVec.ofNat 16 d, status := 0x01 } := by
  rw [exec_hdrunpk, unpackHeader_of_declared h]
  rfl

theorem exec_hdrunpk_err {s : State} (h : illegalHeader s.cfg s.aHdr) :
    exec .hdrunpk s = .next { s with rType := 0, rLen := 0, status := 0x04 } := by
  rw [exec_hdrunpk, unpackHeader_of_illegal h]
  rfl

/-- A header as the number `type × 2^13 + lenf` (R50). -/
theorem mkHeader_eq_ofNat (t : FrameType) (lenf : LenField) :
    mkHeader t lenf = BitVec.ofNat 16 (t.toNat * 8192 + lenf.toNat) := by
  rw [← toNat_mkHeader, BitVec.ofNat_toNat, BitVec.setWidth_eq]

/-- Settles O14: HDRPACK stores what `packHeader` answers, case by case. -/
theorem hdrpackPacksTheHeader : Obligations.HdrpackPacksTheHeader := by
  refine fun s => ⟨fun hout => ?_, fun h2 hcap hdata => ?_, fun h2 hcap hmax hne => ?_, fun hmax hne => ?_⟩
  · exact exec_hdrpack_err (packHeader_of_out_of_bounds hout)
  · have hlenf : (0 : LenField).toNat = 0 := rfl
    rw [exec_hdrpack_ok (packHeader_sentinel h2 hcap hdata), mkHeader_eq_ofNat, hlenf, Nat.add_zero]
  · have hlenf : (BitVec.ofNat 13 s.aLen.toNat).toNat = s.aLen.toNat := by rw [BitVec.toNat_ofNat]; omega
    rw [exec_hdrpack_ok (packHeader_literal h2 hcap hmax hne), mkHeader_eq_ofNat, hlenf]
  · exact exec_hdrpack_err (packHeader_of_too_long hmax hne)

/-- `illegalHeader` in numbers (R61). -/
theorem illegalHeader_of_toNat {cfg : Config} {hdr : Half}
    (h : (headerLenf hdr).toNat = 0 ∧ isData cfg (headerType hdr) = false ∨ (headerLenf hdr).toNat = 1 ∨
      cfg.cap < (headerLenf hdr).toNat) : illegalHeader cfg hdr := by
  rcases h with ⟨h0, hctl⟩ | h1 | hlt
  · exact .inl ⟨BitVec.eq_of_toNat_eq h0, hctl⟩
  · exact .inr (.inl (BitVec.eq_of_toNat_eq h1))
  · refine .inr (.inr ⟨fun h0 => ?_, hlt⟩)
    rw [h0] at hlt
    exact absurd hlt (Nat.not_lt_zero _)

/-- Settles O15: HDRUNPK stores the type and the declared length of the header, and fails on the headers of R61. -/
theorem hdrunpkUnpacksTheHeader : Obligations.HdrunpkUnpacksTheHeader := by
  rintro s ⟨hmin, -, -⟩ _ _ rfl rfl
  rw [← toNat_headerType, ← toNat_headerLenf, BitVec.ofNat_toNat, BitVec.setWidth_eq]
  refine ⟨fun h0 hdata => exec_hdrunpk_ok ?_, fun h2 hcap => exec_hdrunpk_ok ?_,
    fun hill => exec_hdrunpk_err (illegalHeader_of_toNat hill)⟩
  · rw [show headerLenf s.aHdr = 0 from BitVec.eq_of_toNat_eq h0]
    exact declaredLength_sentinel hdata hmin
  · exact declaredLength_of_bounds h2 hcap

end Sys2Proof.Machine

/-! ## Frames (41_frame.md): the frame functions case by case, each the inverse of the other (R85, R88), the
commands ENC and DEC, and the statements they settle -/

namespace Sys2Proof.Machine

/-! ### `encodeFrame` (R75, R76) -/

section EncodeFrame

variable {cfg : Config} {t : FrameType}

/-- The bytes of a header in terms of its fields (R51). -/
theorem toNat_loByte_eq_headerLenf (hdr : Half) : (loByte hdr).toNat = (headerLenf hdr).toNat % 256 := by
  rw [toNat_loByte, toNat_headerLenf]
  omega

theorem toNat_hiByte_eq_headerFields (hdr : Half) :
    (hiByte hdr).toNat = (headerType hdr).toNat * 32 + (headerLenf hdr).toNat / 256 := by
  rw [toNat_hiByte, toNat_headerType, toNat_headerLenf]
  omega

/-- A packed header unpacks to the type and the total it was packed from (R71). -/
theorem unpackHeader_of_packHeader {total : Nat} {hdr : Half} (h : packHeader cfg t total = .ok hdr) :
    unpackHeader cfg hdr = .ok (t, total) :=
  (unpackHeader_eq ..).2 (declaredLength_of_packHeader h)

/-- The totals that pack are those of R76. -/
theorem total_of_packHeader {total : Nat} {hdr : Half} (h : packHeader cfg t total = .ok hdr) :
    total ≤ min cfg.cap 8191 ∨ total = cfg.cap ∧ isData cfg t = true := by
  rcases packHeader_cases cfg t total with ⟨-, hcap, hdata, -⟩ | ⟨-, hcap, hmax, -, -⟩ | ⟨-, e⟩
  · exact .inr ⟨hcap, hdata⟩
  · exact .inl (by omega)
  · rw [e] at h
    cases h

end EncodeFrame

/-- Settles O18: the layout of `encodeFrame` past the length check, byte by byte. -/
theorem encodeFrameLaysOutTheFrame : Obligations.EncodeFrameLaysOutTheFrame := by
  refine fun cfg t code payload _ => ⟨encodeFrame_of_err cfg t code payload, fun hdr h => ?_⟩
  refine ⟨_, _, _, _, encodeFrame_of_ok cfg t code hdr payload h, toNat_loByte hdr, toNat_hiByte hdr,
    toNat_loByte code, toNat_hiByte code, toNat_loByte_eq_headerLenf hdr, toNat_hiByte_eq_headerFields hdr,
    le16_lo_hi hdr, ?_⟩
  rw [le16_lo_hi]
  exact unpackHeader_of_packHeader h

/-- Settles O20: the totals that pack. -/
theorem longestPayloadThatEncodes : Obligations.LongestPayloadThatEncodes := by
  refine fun cfg t code payload _ => ⟨⟨fun ⟨frame, h⟩ => ?_, exists_encodeFrame code⟩, fun frame h => ?_⟩
  · obtain ⟨hdr, hp, -⟩ := eq_of_encodeFrame h
    exact total_of_packHeader hp
  · rw [(length_of_encodeFrame h).1]
    exact Nat.le_add_right ..

/-! ### `decodeFrame` (R79) -/

/-- `code` is what a decoded frame holds as exactly one of item code and sequence number (R79). -/
def DecodedFrame.holdsCode (f : DecodedFrame) (code : Half) : Prop :=
  f.item = some code ∧ f.seq = none ∨ f.item = none ∧ f.seq = some code

theorem DecodedFrame.holdsCode_unique {f : DecodedFrame} {c d : Half} (hc : f.holdsCode c) (hd : f.holdsCode d) :
    c = d := by
  rcases hc with ⟨hitem, hseq⟩ | ⟨hitem, hseq⟩ <;> simpa [DecodedFrame.holdsCode, hitem, hseq] using hd

section DecodeFrame

variable {cfg : Config} {t : FrameType}

/-- A frame of at least four bytes whose header declares its byte count reaches step (7) (R79). -/
theorem decodeFrame_of_unpackHeader {b0 b1 c0 c1 : Byte} {body : List Byte}
    (h : unpackHeader cfg (le16 b0 b1) = .ok (t, body.length + 4)) :
    decodeFrame cfg (b0 :: b1 :: c0 :: c1 :: body) = decodeVariant cfg t (body.length + 4) (le16 c0 c1) body := by
  obtain ⟨rfl, hd⟩ := (unpackHeader_eq ..).1 h
  exact decodeHeaded_of_declared _ _ _ _ _ _ _ hd

/-- A header that declares another length than the byte count is a FramingError (R79, R86). -/
theorem decodeFrame_of_mismatch {b0 b1 : Byte} {rest : List Byte} {d : Nat}
    (h : unpackHeader cfg (le16 b0 b1) = .ok (t, d)) (hne : d ≠ rest.length + 2) :
    decodeFrame cfg (b0 :: b1 :: rest) = .err .framing := by
  obtain ⟨rfl, hd⟩ := (unpackHeader_eq ..).1 h
  refine decodeHeaded_of_ne _ _ _ _ _ fun hn => hne ?_
  exact Result.ok.inj (hd.symm.trans hn)

/-- Step (7) on an unrecognised item code (R82). -/
theorem decodeVariant_unknown {n : Nat} {code : Half} {body : List Byte} (hctl : isData cfg t = false)
    (hitem : isItem cfg code = false) : decodeVariant cfg t n code body = .err .unknownItemCode := by
  simp [decodeVariant, hctl, hitem]

/-- Step (7) on a recognised item code (R82). -/
theorem decodeVariant_item {n : Nat} {code : Half} {body : List Byte} (hctl : isData cfg t = false)
    (hitem : isItem cfg code = true) : decodeVariant cfg t n code body = .ok ⟨t, n, some code, none, body⟩ := by
  simp [decodeVariant, hctl, hitem]

/-- Step (7) on a data-bearing type (R83). -/
theorem decodeVariant_seq {n : Nat} {code : Half} {body : List Byte} (hdata : isData cfg t = true) :
    decodeVariant cfg t n code body = .ok ⟨t, n, none, some code, body⟩ :=
  if_pos hdata

/-- What step (7) answers holds its type, length, code and body (R79). -/
theorem eq_of_decodeVariant {n : Nat} {code : Half} {body : List Byte} {f : DecodedFrame}
    (h : decodeVariant cfg t n code body = .ok f) :
    f.type = t ∧ f.declared = n ∧ f.body = body ∧ f.holdsCode code := by
  rcases decodeVariant_cases cfg t n code body with ⟨-, e⟩ | ⟨-, -, e⟩ | ⟨-, -, e⟩ <;> rw [e] at h <;> cases h
  · exact ⟨rfl, rfl, rfl, .inr ⟨rfl, rfl⟩⟩
  · exact ⟨rfl, rfl, rfl, .inl ⟨rfl, rfl⟩⟩

/-- The inversion of `decodeFrame`: the frame has four bytes before its body, its header declares its byte count,
and the answer holds its fields (R79). -/
theorem eq_of_decodeFrame {msg : List Byte} {f : DecodedFrame} (h : decodeFrame cfg msg = .ok f) :
    ∃ b0 b1 c0 c1, msg = b0 :: b1 :: c0 :: c1 :: f.body ∧
      unpackHeader cfg (le16 b0 b1) = .ok (f.type, f.body.length + 4) ∧
      f.holdsCode (le16 c0 c1) := by
  rcases decodeFrame_cases cfg msg with e | ⟨b0, b1, c0, c1, body, rfl, hd, e⟩ <;> rw [e] at h
  · cases h
  · obtain ⟨htype, -, rfl, hcode⟩ := eq_of_decodeVariant h
    exact ⟨b0, b1, c0, c1, rfl, (unpackHeader_eq ..).2 ⟨htype.symm, htype ▸ hd⟩, hcode⟩

/-- The code and the body of a decoded frame encode to the frame with its header packed again (R88). -/
theorem encodeFrame_of_packHeader {hdr : Half} {c0 c1 : Byte} {body : List Byte}
    (h : packHeader cfg t (body.length + 4) = .ok hdr) :
    encodeFrame cfg t (le16 c0 c1) body = .ok (loByte hdr :: hiByte hdr :: c0 :: c1 :: body) := by
  rw [encodeFrame_of_ok cfg t _ hdr body (Nat.add_comm 4 _ ▸ h), loByte_le16, hiByte_le16]

/-- With `CAP` at least 8192 the frame itself comes back (R88). -/
theorem encodeFrame_of_decodeFrame (hcap : 8192 ≤ cfg.cap) {msg : List Byte} {f : DecodedFrame}
    (h : decodeFrame cfg msg = .ok f) : ∃ code, f.holdsCode code ∧ encodeFrame cfg f.type code f.body = .ok msg := by
  obtain ⟨b0, b1, c0, c1, hmsg, hdr, hcode⟩ := eq_of_decodeFrame h
  have hpack := packHeader_of_unpackHeader hdr (not_literalCap_of_large hcap)
  refine ⟨_, hcode, ?_⟩
  rw [encodeFrame_of_packHeader hpack, loByte_le16, hiByte_le16, hmsg]

end DecodeFrame

/-- Settles O26: an encoded frame reaches step (7). -/
theorem decodeFrameRecoversWhatEncodeFrameBuilt : Obligations.DecodeFrameRecoversWhatEncodeFrameBuilt := by
  refine fun cfg t code payload frame _ h => ⟨fun hctl hitem => ?_, fun hdata => ?_⟩
  · rw [decodeFrame_of_encodeFrame h, decodeVariant_item hctl hitem]
  · rw [decodeFrame_of_encodeFrame h, decodeVariant_seq hdata]

/-- Settles O28: a shorter or a longer frame keeps its header, which declares the old length. -/
theorem lengthMismatchAlwaysFails : Obligations.LengthMismatchAlwaysFails := by
  refine fun cfg => ⟨fun b0 b1 rest t d => decodeFrame_of_mismatch, fun msg f h => ?_⟩
  obtain ⟨b0, b1, c0, c1, rfl, hdr, -⟩ := eq_of_decodeFrame h
  refine ⟨decodeFrame_of_mismatch (rest := (c0 :: c1 :: f.body).dropLast) hdr ?_, fun b =>
    decodeFrame_of_mismatch (rest := c0 :: c1 :: f.body ++ [b]) hdr ?_⟩
  · rw [List.length_dropLast, List.length_cons, List.length_cons]
    omega
  · rw [List.length_append, List.length_cons, List.length_cons, List.length_singleton]
    omega

/-- Settles O30: the header packs again as R72 says, and the bytes after it are the code and the body. -/
theorem encodeFrameRecoversWhatDecodeFrameRead : Obligations.EncodeFrameRecoversWhatDecodeFrameRead := by
  refine fun cfg _ => ⟨fun b0 b1 rest f h => ?_, fun msg f h => ?_, fun hcap m n f hm hn => ?_⟩
  · obtain ⟨b0, b1, c0, c1, ⟨⟩, hdr, hcode⟩ := eq_of_decodeFrame h
    by_cases hlit : literalCap cfg f.type (le16 b0 b1)
    · have hpack := packHeader_of_literalCap hdr hlit
      exact ⟨_, _, _, hcode, encodeFrame_of_packHeader hpack, fun hcap => absurd hlit (not_literalCap_of_large hcap),
        fun hn => absurd hlit hn, fun _ => le16_lo_hi _⟩
    · have hpack := packHeader_of_unpackHeader hdr hlit
      have hsame : loByte (le16 b0 b1) = b0 ∧ hiByte (le16 b0 b1) = b1 := ⟨loByte_le16 .., hiByte_le16 ..⟩
      exact ⟨_, _, _, hcode, encodeFrame_of_packHeader hpack, fun _ => hsame, fun _ => hsame,
        fun hl => absurd hl hlit⟩
  · obtain ⟨b0, b1, c0, c1, rfl, -, -⟩ := eq_of_decodeFrame h
    exact Nat.le_add_left ..
  · obtain ⟨c, hc, hcm⟩ := encodeFrame_of_decodeFrame hcap hm
    obtain ⟨d, hd, hdn⟩ := encodeFrame_of_decodeFrame hcap hn
    rw [DecodedFrame.holdsCode_unique hc hd, hdn] at hcm
    exact (Result.ok.inj hcm).symm

/-! ### ENC (R77, R78) -/

/-- ENC when its total packs (R77). -/
theorem exec_enc_ok {s : State} {hdr : Half} (h : packHeader s.cfg s.aType (4 + s.ilen.toNat) = .ok hdr) :
    exec .enc s = .next (s.finishEnc (.ok
      (loByte hdr :: hiByte hdr :: loByte s.aCode :: hiByte s.aCode :: s.memRead .ibuf 0 s.ilen.toNat))) :=
  exec_enc_of_encodeFrame rfl (encodeFrame_of_ok _ _ _ hdr _ (by rw [State.length_memRead]; exact h))

/-- ENC when its total does not pack (R77, R107). -/
theorem exec_enc_err {s : State} {e : ErrorKind} (h : packHeader s.cfg s.aType (4 + s.ilen.toNat) = .err e) :
    exec .enc s = .next { s with olen := 0, status := 0x04 } := by
  obtain rfl := packHeader_err _ _ _ _ h
  exact exec_enc_of_encodeFrame rfl (encodeFrame_of_err _ _ _ _ _ (by rw [State.length_memRead]; exact h))

/-- Settles O19: the frame is stored from index 0 of OBUF. -/
theorem encBuildsTheFrame : Obligations.EncBuildsTheFrame := by
  refine fun s ⟨_, hcap, _⟩ => ⟨fun hdr h => ?_, fun e => exec_enc_err⟩
  have hmax : 4 + s.ilen.toNat ≤ s.cfg.cap := (packHeader_bounds _ _ _ _ h).2
  refine ⟨_, exec_enc_ok h, rfl, ?_⟩
  generalize hb : loByte hdr :: hiByte hdr :: loByte s.aCode :: hiByte s.aCode :: s.memRead .ibuf 0 s.ilen.toNat =
    bytes
  have hlen : bytes.length = 4 + s.ilen.toNat := by
    rw [← hb]
    simp only [List.length_cons, State.length_memRead]
    omega
  have hbyte (k : Nat) := State.byteOf_stored (s := s) (t := s.finishEnc (.ok bytes)) (b := .obuf) rfl rfl k
  refine ⟨(toNat_ofNat_of_le_nmax (by omega)).trans hlen, ?_, ?_, ?_, ?_, fun k hk => ?_, fun k hk => ?_⟩
  · rw [hbyte, ← hb]; exact toNat_loByte hdr
  · rw [hbyte, ← hb]; exact toNat_hiByte hdr
  · rw [hbyte, ← hb]; exact toNat_loByte s.aCode
  · rw [hbyte, ← hb]; exact toNat_hiByte s.aCode
  · have h4 : bytes[4 + k]? = (s.memRead .ibuf 0 s.ilen.toNat)[k]? := by
      rw [← hb, Nat.add_comm]
      rfl
    rw [hbyte, if_pos (by omega), h4, State.getElem?_memRead, if_pos hk, Nat.zero_add]
    rfl
  · rw [hbyte, if_neg (by omega)]

/-- Settles O21: whether ENC succeeds, and the length of its frame, hang on the total alone, and step (7) refuses
the code. -/
theorem encDoesNotCheckTheCode : Obligations.EncDoesNotCheckTheCode := by
  refine ⟨fun s c => ?_, fun cfg t code payload frame _ hctl hitem h => ?_⟩
  · cases h : packHeader s.cfg s.aType (4 + s.ilen.toNat) with
    | ok hdr =>
      refine ⟨_, _, exec_enc_ok h, exec_enc_ok (s := { s with aCode := c }) h, rfl, ?_⟩
      simp only [State.finishEnc_ok, List.length_cons, State.length_memRead]
    | err e => exact ⟨_, _, exec_enc_err h, exec_enc_err (s := { s with aCode := c }) h, rfl, rfl⟩
  · rw [decodeFrame_of_encodeFrame h, decodeVariant_unknown hctl hitem]

/-! ### DEC and its rows on a header (R79, R81) -/

/-- The header fields that DEC or one of its rows decodes: for DEC those of bytes 0 and 1 of IBUF, for a row its own
(R66; log entry 6). -/
def takesHeader (s : State) (i : Instr) (t : FrameType) (lenf : LenField) : Prop :=
  i = .dec ∧ le16 (s.byteOf .ibuf 0) (s.byteOf .ibuf 1) = mkHeader t lenf ∨ i.headerFields = some (t, lenf)

/-- The `code16` of the frame in IBUF: its bytes 2 and 3 (R51). -/
abbrev State.frameCode (s : State) : Half := le16 (s.byteOf .ibuf 2) (s.byteOf .ibuf 3)

/-- The body of the frame in IBUF: its bytes from 4 on (R79). -/
def State.frameBody (s : State) : List Byte := s.memRead .ibuf 4 (s.ilen.toNat - 4)

section DecHeaded

variable {s : State} {t : FrameType} {lenf : LenField} {i : Instr}

/-- DEC and its rows are DEC on the header they take (R66, R81). -/
theorem exec_of_takesHeader (h : takesHeader s i t lenf) : exec i s = .next (s.decHeaded t lenf) := by
  rcases h with ⟨rfl, h⟩ | h
  · exact execDec_eq_decHeaded s t lenf h
  · exact exec_of_headerFields i s t lenf h

/-- A frame of at least four bytes whose header declares ILEN reaches step (7) (R79). -/
theorem State.decHeaded_of_declared (h4 : 4 ≤ s.ilen.toNat) (hd : declaredLength s.cfg t lenf = .ok s.ilen.toNat) :
    s.decHeaded t lenf = s.finishDec (decodeVariant s.cfg t s.ilen.toNat s.frameCode s.frameBody) := by
  have hrest : s.memRead .ibuf 2 (s.ilen.toNat - 2) = s.byteOf .ibuf 2 :: s.byteOf .ibuf 3 :: s.frameBody := by
    rw [show s.ilen.toNat - 2 = (s.ilen.toNat - 4) + 2 by omega]
    rfl
  rw [State.decHeaded, hrest, decodeHeaded_of_declared _ _ _ _ _ _ _ hd]

/-- Every other frame is a FramingError (R79, R105). -/
theorem State.decHeaded_of_malformed
    (h : s.ilen.toNat < 4 ∨ declaredLength s.cfg t lenf ≠ .ok s.ilen.toNat) :
    s.decHeaded t lenf = s.finishDec (.err .framing) := by
  rw [State.decHeaded]
  congr 1
  rcases decodeHeaded_cases s.cfg t lenf s.ilen.toNat (s.memRead .ibuf 2 (s.ilen.toNat - 2))
    with e | ⟨c0, c1, body, hrest, hd, -⟩
  · exact e
  · have hlen := congrArg List.length hrest
    simp only [State.length_memRead, List.length_cons] at hlen
    exact absurd hd (h.resolve_left (by omega))

/-- What DEC leaves of the frame in IBUF when it succeeds (R81). -/
theorem State.finishDec_frameBody (h4 : 4 ≤ s.ilen.toNat) (item seq : Option Half) {u : State}
    (hu : s.finishDec (.ok ⟨t, s.ilen.toNat, item, seq, s.frameBody⟩) = u) :
    u = { s with
      rType := t, rLen := s.ilen, rItem := optionValue item, rItemV := optionValid item,
      rSeq := optionValue seq, rSeqV := optionValid seq, bbuf := u.bbuf, blen := s.ilen - 4,
      sActive := 0, sStride := 0, sPos := 0, status := 0x01 } ∧
    ∀ k, k < s.ilen.toNat - 4 → u.byteOf .bbuf k = s.byteOf .ibuf (4 + k) := by
  have hlen : s.frameBody.length = s.ilen.toNat - 4 := State.length_memRead ..
  have hblen : BitVec.ofNat 16 (s.ilen.toNat - 4) = s.ilen - 4 := by bv_omega
  subst hu
  refine ⟨?_, fun k hk => ?_⟩
  · simp only [State.finishDec_ok, hlen, hblen, BitVec.ofNat_toNat, BitVec.setWidth_eq]
  · rw [State.finishDec_ok_byteOf, if_pos ⟨rfl, hlen.symm ▸ hk⟩]
    simp only [State.frameBody, State.getElem?_memRead, if_pos hk, Option.getD_some]

/-- A frame that passes the framing checks with a control-bearing type and an unrecognised code is UnknownItemCode
(R82). -/
theorem State.decHeaded_unknown (h4 : 4 ≤ s.ilen.toNat) (hd : declaredLength s.cfg t lenf = .ok s.ilen.toNat)
    (hctl : isData s.cfg t = false) (hitem : isItem s.cfg s.frameCode = false) :
    s.decHeaded t lenf = s.finishDec (.err .unknownItemCode) := by
  rw [State.decHeaded_of_declared h4 hd, decodeVariant_unknown hctl hitem]

/-- No other frame leaves 0x08 (R106). -/
theorem State.decHeaded_status_unknown (h : (s.decHeaded t lenf).status = 0x08) :
    declaredLength s.cfg t lenf = .ok s.ilen.toNat ∧ 4 ≤ s.ilen.toNat ∧ isData s.cfg t = false ∧
      isItem s.cfg s.frameCode = false := by
  by_cases hbad : s.ilen.toNat < 4 ∨ declaredLength s.cfg t lenf ≠ .ok s.ilen.toNat
  · rw [State.decHeaded_of_malformed hbad] at h
    exact absurd h (by decide : statusFailure .framing ≠ 0x08)
  · obtain ⟨h4, hd⟩ : 4 ≤ s.ilen.toNat ∧ declaredLength s.cfg t lenf = .ok s.ilen.toNat := by
      simpa only [not_or, not_lt, not_not] using hbad
    rw [State.decHeaded_of_declared h4 hd] at h
    rcases decodeVariant_cases s.cfg t s.ilen.toNat s.frameCode s.frameBody with
      ⟨-, e⟩ | ⟨-, -, e⟩ | ⟨hctl, hitem, -⟩
    · rw [e] at h
      exact absurd h (by decide : statusSuccess ≠ 0x08)
    · rw [e] at h
      exact absurd h (by decide : statusSuccess ≠ 0x08)
    · exact ⟨hd, h4, hctl, hitem⟩

/-- The causes of R105 that lie in the header and the byte count `n` (F4 to F7): the header does not declare `n`. -/
theorem declaredLength_ne_of_malformed {cfg : Config} {n : Nat}
    (h : lenf = 0 ∧ isData cfg t = false ∨ lenf = 1 ∨ cfg.cap < lenf.toNat ∨ lenf = 0 ∧ n ≠ cfg.cap ∨
      lenf ≠ 0 ∧ lenf.toNat ≠ n) : declaredLength cfg t lenf ≠ .ok n := by
  intro hn
  rcases declaredLength_cases cfg t lenf with ⟨h0, hdata, -, e⟩ | ⟨h2, hcap, e⟩ | ⟨-, e⟩ <;> rw [e] at hn <;>
    cases hn
  · simp [h0, hdata] at h
  · rcases h with ⟨rfl, -⟩ | rfl | hlt | ⟨rfl, -⟩ | ⟨-, hne⟩
    · exact absurd h2 (by decide)
    · exact absurd h2 (by decide)
    · omega
    · exact absurd h2 (by decide)
    · exact hne rfl

end DecHeaded

/-- Settles O22: the header declares ILEN by its length field, and the code is an item. -/
theorem decOfAControlFrame : Obligations.DecOfAControlFrame := by
  intro s t lenf i _ hi hctl hlenf h4 hcap hitem
  have hd : declaredLength s.cfg t lenf = .ok s.ilen.toNat :=
    hlenf ▸ declaredLength_of_bounds (by omega) (by omega)
  refine ⟨_, exec_of_takesHeader hi, ?_⟩
  rw [State.decHeaded_of_declared h4 hd, decodeVariant_item hctl hitem]
  exact State.finishDec_frameBody h4 (some s.frameCode) none rfl

/-- Settles O23: the header declares ILEN by its length field or by the sentinel. -/
theorem decOfADataFrame : Obligations.DecOfADataFrame := by
  intro s t lenf i ⟨hmin, _, _⟩ hi hdata hlenf h4 hcap
  have hd : declaredLength s.cfg t lenf = .ok s.ilen.toNat := by
    rcases hlenf with hlenf | ⟨rfl, hlenf⟩
    · exact hlenf ▸ declaredLength_of_bounds (by omega) (by omega)
    · exact hlenf ▸ declaredLength_sentinel hdata hmin
  refine ⟨_, exec_of_takesHeader hi, ?_⟩
  rw [State.decHeaded_of_declared h4 hd, decodeVariant_seq hdata]
  exact State.finishDec_frameBody h4 none (some s.frameCode) rfl

/-- Settles O24: every cause but a short frame makes the declared length another than ILEN. -/
theorem decFailsOnMalformedFrames : Obligations.DecFailsOnMalformedFrames := by
  intro s t lenf i hi hbad
  rw [exec_of_takesHeader hi, State.decHeaded_of_malformed (hbad.imp_right declaredLength_ne_of_malformed)]
  rfl

/-- Settles O29: step (7) refuses the code, and DEC writes what it answers. -/
theorem unrecognisedItemCodeFails : Obligations.UnrecognisedItemCodeFails := by
  refine ⟨fun cfg b0 b1 b2 b3 body t h hctl hitem => ?_, fun s t h4 h hctl hitem => ?_⟩
  · rw [decodeFrame_of_unpackHeader h, decodeVariant_unknown hctl hitem]
  · obtain ⟨rfl, hd⟩ := (unpackHeader_eq ..).1 h
    refine ⟨_, exec_dec s, ?_⟩
    rw [State.decHeaded_unknown h4 hd hctl hitem]
    exact ⟨rfl, rfl⟩

/-- Settles O60: DEC and its rows are DEC on a header. -/
theorem decOfAnUnrecognisedItemCode : Obligations.DecOfAnUnrecognisedItemCode := by
  intro s t lenf i hi
  have hunpack : unpackHeader s.cfg (mkHeader t lenf) = .ok (t, s.ilen.toNat) ↔
      declaredLength s.cfg t lenf = .ok s.ilen.toNat := by
    simp [unpackHeader_eq]
  refine ⟨_, exec_of_takesHeader hi, ?_, fun h => ?_⟩
  · rw [hunpack]
    refine ⟨State.decHeaded_status_unknown, fun ⟨hd, h4, hctl, hitem⟩ => ?_⟩
    rw [State.decHeaded_unknown h4 hd hctl hitem]
    rfl
  · obtain ⟨hd, h4, hctl, hitem⟩ := State.decHeaded_status_unknown h
    rw [State.decHeaded_unknown h4 hd hctl hitem]
    rfl

end Sys2Proof.Machine

/-! ## Samples (42_samples.md): strides and extension, the sequence of a body taken apart, the commands SMPSTART and
SMPNEXT, the iterator as `getSamples` (R98), and the statements they settle -/

namespace Sys2Proof.Machine

/-! ### Strides (R91) -/

/-- A width outside the set of four is refused. -/
theorem strideOf_err {w : Nat} (h : ¬ (w = 8 ∨ w = 16 ∨ w = 24 ∨ w = 32)) :
    strideOf w = .err .unsupportedSampleWidth :=
  if_neg h

/-- Settles O31. -/
theorem strideOnlyForTheFourWidths : Obligations.StrideOnlyForTheFourWidths :=
  ⟨rfl, rfl, rfl, rfl, fun w h8 h16 h24 h32 => strideOf_err (by simp [h8, h16, h24, h32])⟩

/-- The widths of R94 as bytes of `A_WIDTH` are the widths of R91 as numbers. -/
theorem mem_legalWidths_iff (w : Byte) :
    w ∈ ([8, 16, 24, 32] : List Byte) ↔ w.toNat = 8 ∨ w.toNat = 16 ∨ w.toNat = 24 ∨ w.toNat = 32 := by
  simp [← BitVec.toNat_inj]

/-! ### Extension to 32 bits (R97) -/

section Extension

variable {cfg : Config} {raw stride : Nat}

theorem extend32_of_zero (h : cfg.signExtend = false) : extend32 cfg raw stride = BitVec.ofNat 32 raw := by
  simp [extend32, h]

theorem extend32_of_sign (h : cfg.signExtend = true) :
    extend32 cfg raw stride = (BitVec.ofNat (8 * stride) raw).signExtend 32 := by
  simp [extend32, h]

/-- At stride 4 all 32 bits are the raw value's, under both values of the parameter. -/
theorem extend32_stride_four : extend32 cfg raw 4 = BitVec.ofNat 32 raw := by
  cases h : cfg.signExtend with
  | false => exact extend32_of_zero h
  | true => rw [extend32_of_sign h, BitVec.signExtend_eq]

/-- A raw value below `2^(8 × stride)` read as a signed number of `8 × stride` bits. -/
theorem toInt_ofNat_of_lt (h1 : 1 ≤ stride) (hraw : raw < 2 ^ (8 * stride)) :
    (BitVec.ofNat (8 * stride) raw).toInt =
      if raw < 2 ^ (8 * stride - 1) then (raw : Int) else (raw : Int) - 2 ^ (8 * stride) := by
  have hhalf : 2 ^ (8 * stride) = 2 * 2 ^ (8 * stride - 1) := by
    rw [← Nat.pow_succ', Nat.succ_eq_add_one, Nat.sub_add_cancel (by omega)]
  have hsign : 2 * raw < 2 ^ (8 * stride) ↔ raw < 2 ^ (8 * stride - 1) := by omega
  rw [BitVec.toInt_eq_toNat_cond, BitVec.toNat_ofNat, Nat.mod_eq_of_lt hraw]
  simp only [hsign, Nat.cast_pow, Nat.cast_ofNat]

end Extension

/-- Settles O34: a raw value fits 32 bits, and sign extension keeps the signed reading. -/
theorem extensionOfNarrowSamples : Obligations.ExtensionOfNarrowSamples := by
  intro cfg raw stride h1 h4 hraw
  have hfit : raw < 2 ^ 32 := hraw.trans_le (Nat.pow_le_pow_right (by decide) (by omega))
  have hzero : (BitVec.ofNat 32 raw).toNat = raw := by rw [BitVec.toNat_ofNat, Nat.mod_eq_of_lt hfit]
  refine ⟨fun h => ?_, fun h => ?_, ?_⟩
  · rw [extend32_of_zero h, hzero]
  · rw [extend32_of_sign h, int32, BitVec.toInt_signExtend_of_le (by omega), toInt_ofNat_of_lt h1 hraw]
  · rintro rfl
    rw [extend32_stride_four, hzero]

/-! ### The samples of a body, taken apart (R92, R93) -/

/-- The elements of a body at a stride, in body order: what `getSamples` lists (R93). -/
def samplesOf (cfg : Config) (stride : Nat) (body : List Byte) : List Int :=
  (List.range (body.length / stride)).map fun k => sampleAt cfg body (k * stride) stride

section SamplesOf

variable {cfg : Config} {stride : Nat}

theorem getSamples_of_strideOf {w : Nat} (h : strideOf w = .ok stride) (body : List Byte) :
    getSamples cfg w body = .ok (samplesOf cfg stride body) := by
  simp only [getSamples, h, samplesOf]

theorem getSamples_of_refused {w : Nat} {e : ErrorKind} (h : strideOf w = .err e) (body : List Byte) :
    getSamples cfg w body = .err e := by
  simp only [getSamples, h]

@[simp] theorem length_samplesOf (body : List Byte) :
    (samplesOf cfg stride body).length = body.length / stride := by
  simp [samplesOf]

/-- A body shorter than one stride gives no element (R92). -/
theorem samplesOf_short {body : List Byte} (h : body.length < stride) : samplesOf cfg stride body = [] := by
  rw [samplesOf, Nat.div_eq_of_lt h]
  rfl

/-- A body of one stride gives one element, the extended value of its bytes (R93, R96, R97). -/
theorem samplesOf_own {own : List Byte} (h0 : 0 < stride) (h : own.length = stride) :
    samplesOf cfg stride own = [int32 (samplePattern cfg own)] := by
  subst h
  simp [samplesOf, Nat.div_self h0, sampleAt]

/-- An element whose bytes lie in the first part of a body is that part's. -/
theorem sampleAt_append_left {pre : List Byte} (post : List Byte) {i : Nat} (h : i + stride ≤ pre.length) :
    sampleAt cfg (pre ++ post) i stride = sampleAt cfg pre i stride := by
  have hdrop : (pre ++ post).drop i = pre.drop i ++ post := List.drop_append_of_le_length (by omega)
  have htake : (pre.drop i ++ post).take stride = (pre.drop i).take stride :=
    List.take_append_of_le_length (by rw [List.length_drop]; omega)
  rw [sampleAt, hdrop, htake, sampleAt]

/-- An element whose bytes lie in the second part of a body is that part's. -/
theorem sampleAt_append_right (pre post : List Byte) (i : Nat) :
    sampleAt cfg (pre ++ post) (pre.length + i) stride = sampleAt cfg post i stride := by
  rw [sampleAt, List.drop_length_add_append, sampleAt]

/-- After a whole number of strides the elements of a body are those of its two parts: no element lies across the
cut. -/
theorem samplesOf_append (h0 : 0 < stride) {pre : List Byte} (hpre : stride ∣ pre.length) (post : List Byte) :
    samplesOf cfg stride (pre ++ post) = samplesOf cfg stride pre ++ samplesOf cfg stride post := by
  obtain ⟨m, hm⟩ := hpre
  have hcount : (pre ++ post).length / stride = m + post.length / stride := by
    rw [List.length_append, hm, Nat.mul_add_div h0]
  have hleft : pre.length / stride = m := by rw [hm, Nat.mul_div_cancel_left m h0]
  rw [samplesOf, hcount, List.range_add, List.map_append, List.map_map, samplesOf, hleft, samplesOf]
  congr 1
  · refine List.map_congr_left fun k hk => sampleAt_append_left post ?_
    rw [hm, ← Nat.succ_mul, Nat.mul_comm stride]
    exact Nat.mul_le_mul_right stride (List.mem_range.1 hk)
  · refine List.map_congr_left fun k _ => ?_
    rw [← sampleAt_append_right pre post, hm, Nat.mul_comm stride, ← Nat.add_mul, Function.comp_apply]

end SamplesOf

/-- Settles O32: the tail is shorter than one stride, so it gives no element. -/
theorem trailingBytesAreDropped : Obligations.TrailingBytesAreDropped := by
  intro cfg w stride body tail hw htail hbody
  refine ⟨samplesOf cfg stride body, ?_, length_samplesOf body, getSamples_of_strideOf hw body⟩
  rw [getSamples_of_strideOf hw, samplesOf_append (by omega) hbody, samplesOf_short htail, List.append_nil]

/-- Settles O33: the elements of the bytes before, then the one of the stride bytes, then those of the bytes after. -/
theorem elementKDependsOnItsOwnBytes : Obligations.ElementKDependsOnItsOwnBytes := by
  intro cfg w stride pre own post hw hpre hown
  have h0 : 0 < stride := (strideOf_ok w stride hw).1
  refine ⟨_, getSamples_of_strideOf hw _, ?_⟩
  rw [List.append_assoc, samplesOf_append h0 hpre, samplesOf_append h0 (by rw [hown]), samplesOf_own h0 hown,
    ← length_samplesOf (cfg := cfg) (stride := stride) pre]
  simp [samplePattern, hown]

/-- Settles O35: the four examples run, under each value of the parameter. -/
theorem workedExamplesOfGetSamples : Obligations.WorkedExamplesOfGetSamples := by
  intro sign body
  refine ⟨?_, ?_, ?_, getSamples_of_refused (strideOf_err (by decide)) body⟩ <;> revert sign <;> decide

/-! ### SMPSTART (R94) and SMPNEXT (R95), case by case -/

/-- SMPSTART refuses a width that has no stride. -/
theorem exec_smpstart_of_refused {s : State} {e : ErrorKind} (h : strideOf s.aWidth.toNat = .err e) :
    exec .smpstart s = .next { s with sActive := 0, sStride := 0, sPos := 0, rSample := 0, status := 0x0C } := by
  rcases s.startSequence_cases s.aWidth.toNat with ⟨k, hk, -⟩ | ⟨-, e⟩
  · rw [hk] at h
    cases h
  · exact congrArg Host.Outcome.next e

/-- Settles O36: the widths of the list are those that have a stride. -/
theorem smpstartStartsOrRefuses : Obligations.SmpstartStartsOrRefuses := by
  intro s
  simp only [mem_legalWidths_iff]
  exact ⟨fun h => exec_smpstart_of_strideOf (if_pos h), fun h => exec_smpstart_of_refused (strideOf_err h)⟩

/-- What SMPNEXT leaves with a full stride left: the sample at `S_POS`, and `S_POS` advanced. -/
def State.takeSample (s : State) : State :=
  { s with
    rSample := samplePattern s.cfg (s.memRead .bbuf s.sPos.toNat s.sStride.toNat)
    sPos := BitVec.ofNat 16 (s.sPos.toNat + s.sStride.toNat)
    status := 0x01 }

section Smpnext

variable {s : State}

theorem exec_smpnext_inactive (h : s.sActive = 0) :
    exec .smpnext s = .next { s with rSample := 0, status := 0x1C } :=
  if_pos h

theorem exec_smpnext_sample (h : s.sActive ≠ 0) (hle : s.sPos.toNat + s.sStride.toNat ≤ s.blen.toNat) :
    exec .smpnext s = .next s.takeSample :=
  (if_neg h).trans (if_pos hle)

theorem exec_smpnext_end (h : s.sActive ≠ 0) (hlt : s.blen.toNat < s.sPos.toNat + s.sStride.toNat) :
    exec .smpnext s = .next { s with rSample := 0, status := 0x03 } :=
  (if_neg h).trans (if_neg (Nat.not_le.2 hlt))

end Smpnext

/-- Settles O38: the three cases of R95, and at each stride the sum of R96, which `littleEndian` nests. -/
theorem smpnextProducesTheNextSample : Obligations.SmpnextProducesTheNextSample := by
  intro s
  have hne (h : s.sActive = 1) : s.sActive ≠ 0 := by rw [h]; decide
  refine ⟨exec_smpnext_inactive, fun h => exec_smpnext_end (hne h), fun h hle raw hraw => ?_⟩
  have hsum : littleEndian (s.memRead .bbuf s.sPos.toNat s.sStride.toNat) = raw := by
    rcases hraw with ⟨hk, rfl⟩ | ⟨hk, rfl⟩ | ⟨hk, rfl⟩ | ⟨hk, rfl⟩ <;>
      simp [hk, State.memRead, littleEndian, Nat.mul_add, ← Nat.mul_assoc, Nat.add_assoc]
  rw [exec_smpnext_sample (hne h) hle, State.takeSample, samplePattern, State.length_memRead, hsum]

/-! ### Restarting a sequence (R99) -/

/-- SMPSTART overwrites everything that SMPNEXT writes, and reads none of it. -/
theorem exec_smpstart_after_smpnext {s t : State} (h : exec .smpnext s = .next t) :
    exec .smpstart t = exec .smpstart s := by
  obtain ⟨-, -, hframe, -⟩ := sampleCommandsFrame _ s t h
  rw [hframe rfl]
  cases hw : strideOf s.aWidth.toNat with
  | ok k => rw [exec_smpstart_of_strideOf hw]; exact exec_smpstart_of_strideOf hw
  | err e => rw [exec_smpstart_of_refused hw]; exact exec_smpstart_of_refused hw

/-- The first of several issues of SMPNEXT, then the others. -/
theorem runScript_smpnext_succ {s t : State} (h : exec .smpnext s = .next t) (k : Nat) :
    runScript (List.replicate (k + 1) (.issue 5)) s = runScript (List.replicate k (.issue 5)) t := by
  have hp : perform s (.issue 5) = .next t := (exec_issuedRow s 5).trans h
  rw [List.replicate_succ, runScript_cons, hp]
  rfl

/-- The last of several issues of SMPNEXT, after the others. -/
theorem runScript_smpnexts {s t u : State} {n : Nat} (h : runScript (List.replicate n (.issue 5)) s = .next t)
    (hu : exec .smpnext t = .next u) :
    runScript (List.replicate (n + 1) (.issue 5)) s = .next (u.withPending []) := by
  rw [List.replicate_succ', runScript_append, h]
  exact runScript_issue hu

theorem State.withPending_of_pending {s : State} {p : List HostAction} (h : s.pending = p) : s.withPending p = s := by
  subst h
  rfl

/-- However often SMPNEXT is issued, SMPSTART after it is SMPSTART in its place. -/
theorem exec_smpstart_after_smpnexts {s u : State} {k : Nat} (hs : s.pending = [])
    (h : runScript (List.replicate k (.issue 5)) s = .next u) : exec .smpstart u = exec .smpstart s := by
  induction k generalizing s with
  | zero =>
    obtain rfl := Host.Outcome.next.inj ((runScript_nil s).symm.trans h)
    rw [State.withPending_of_pending hs]
  | succ k ih =>
    obtain ⟨t, ht, heff⟩ := exec_effect .smpnext s
    rw [runScript_smpnext_succ ht] at h
    rw [ih (heff.pending_eq.trans hs) h, exec_smpstart_after_smpnext ht]

/-- Settles O40: SMPSTART after the pass is SMPSTART issued twice at once, which R42 lets change nothing. -/
theorem sequenceIsRestartable : Obligations.SequenceIsRestartable := by
  intro s t u k hstart hpending hrun
  rw [exec_smpstart_after_smpnexts hpending hrun]
  exact smpstart_again hstart

/-! ### The iterator is `getSamples` (R98) -/

/-- A longer `MemRead` is a `MemRead` of its first bytes and one of the others. -/
theorem State.memRead_add (s : State) (b : Buf) (i m n : Nat) :
    s.memRead b i (m + n) = s.memRead b i m ++ s.memRead b (i + m) n := by
  induction m generalizing i with
  | zero => rw [Nat.zero_add]; rfl
  | succ m ih =>
    rw [Nat.succ_add, State.memRead, ih, State.memRead, List.cons_append, Nat.add_right_comm, Nat.add_assoc]

/-- An active sequence that has the elements `es` still ahead: those of the body bytes from `S_POS` on. It is what
every SMPNEXT keeps, with the first of `es` taken off (R98). -/
structure Yields (s : State) (es : List Int) : Prop where
  active : s.sActive ≠ 0
  stride : 0 < s.sStride.toNat
  ahead : samplesOf s.cfg s.sStride.toNat (s.memRead .bbuf s.sPos.toNat (s.blen.toNat - s.sPos.toNat)) = es

/-- What SMPNEXT reports of the next element, and of the end when there is none (R98). -/
def reports (t : State) : Option Int → Prop
  | some e => t.status = 0x01 ∧ int32 t.rSample = e
  | none => t.status = 0x03

namespace Yields

variable {s : State} {es : List Int} (h : Yields s es)

include h

theorem withPending (p : List HostAction) : Yields (s.withPending p) es :=
  ⟨h.active, h.stride, by rw [State.withPending_memRead]; exact h.ahead⟩

/-- With a full stride left the next element is the sample at `S_POS`, and the sequence goes on after it. -/
theorem takeSample (hle : s.sPos.toNat + s.sStride.toNat ≤ s.blen.toNat) :
    ∃ rest, es = int32 s.takeSample.rSample :: rest ∧ Yields s.takeSample rest := by
  have hpos : s.takeSample.sPos.toNat = s.sPos.toNat + s.sStride.toNat :=
    toNat_ofNat_of_le_nmax (by have := s.blen.isLt; omega)
  have hsplit : s.blen.toNat - s.sPos.toNat =
      s.sStride.toNat + (s.blen.toNat - (s.sPos.toNat + s.sStride.toNat)) := by omega
  have hown := State.length_memRead s .bbuf s.sPos.toNat s.sStride.toNat
  refine ⟨_, ?_, h.active, h.stride, rfl⟩
  rw [hpos, State.memRead_of_memoryOf_eq s s.takeSample rfl rfl, ← h.ahead, hsplit, State.memRead_add,
    samplesOf_append h.stride (by rw [hown]), samplesOf_own h.stride hown]
  rfl

/-- With less than a stride left there is no next element. -/
theorem eq_nil (hlt : s.blen.toNat < s.sPos.toNat + s.sStride.toNat) : es = [] := by
  have hstride := h.stride
  rw [← h.ahead, samplesOf_short (by rw [State.length_memRead]; omega)]

/-- SMPNEXT reports the next element or the end, and the elements after it are still ahead (R95). -/
theorem smpnext : ∃ t, exec .smpnext s = .next t ∧ reports t es.head? ∧ Yields t es.tail := by
  rcases Nat.lt_or_ge s.blen.toNat (s.sPos.toNat + s.sStride.toNat) with hlt | hle
  · obtain rfl := h.eq_nil hlt
    have hread := State.memRead_of_memoryOf_eq s { s with rSample := 0, status := 0x03 } (b := .bbuf) rfl rfl
    exact ⟨_, exec_smpnext_end h.active hlt, rfl, h.active, h.stride, (congrArg _ (hread ..)).trans h.ahead⟩
  · obtain ⟨rest, rfl, hrest⟩ := h.takeSample hle
    exact ⟨_, exec_smpnext_sample h.active hle, ⟨rfl, rfl⟩, hrest⟩

/-- After `n` issues of SMPNEXT the first `n` elements are behind. -/
theorem run (n : Nat) : ∃ t, runScript (List.replicate n (.issue 5)) s = .next t ∧ Yields t (es.drop n) := by
  induction n generalizing s es with
  | zero => exact ⟨_, runScript_nil s, h.withPending []⟩
  | succ n ih =>
    obtain ⟨t, ht, -, htail⟩ := h.smpnext
    rw [runScript_smpnext_succ ht, ← List.drop_tail]
    exact ih htail

/-- The loop of GETSAMPLES collects the elements ahead, whatever bound above their number it is given (R65). -/
theorem collect : ∃ t, t.status = 0x03 ∧ ∀ budget, es.length < budget → collectSamples budget s = .next (es, t) := by
  induction es generalizing s with
  | nil =>
    refine ⟨{ s with rSample := 0, status := 0x03, pending := [] }, rfl, fun budget hb => ?_⟩
    obtain ⟨budget, rfl⟩ := Nat.exists_eq_add_one.2 hb
    refine collectSamples_end budget s h.active (Nat.lt_of_not_le fun hle => ?_)
    obtain ⟨rest, hrest, -⟩ := h.takeSample hle
    cases hrest
  | cons e es ih =>
    have hle : s.sPos.toNat + s.sStride.toNat ≤ s.blen.toNat :=
      Nat.le_of_not_lt fun hlt => List.cons_ne_nil e es (h.eq_nil hlt)
    obtain ⟨rest, hrest, hnext⟩ := h.takeSample hle
    cases hrest
    obtain ⟨t, ht, hcollect⟩ := ih (hnext.withPending [])
    refine ⟨t, ht, fun budget hb => ?_⟩
    rw [List.length_cons] at hb
    obtain ⟨budget, rfl⟩ := Nat.exists_eq_add_one.2 (Nat.zero_lt_of_lt hb)
    have hloop : collectSamples budget (s.takeSample.withPending []) = .next (es, t) := hcollect budget (by omega)
    exact (collectSamples_sample budget s h.active hle).trans (congrArg (collectBefore _) hloop)

end Yields

/-- With no sequence the loop of GETSAMPLES collects nothing, whatever bound it is given (R95, R65). -/
theorem collectSamples_of_inactive {s : State} (h : s.sActive = 0) :
    ∃ t, t.status = 0x1C ∧ ∀ budget, 0 < budget → collectSamples budget s = .next ([], t) := by
  refine ⟨{ s with rSample := 0, status := 0x1C, pending := [] }, rfl, fun budget hb => ?_⟩
  obtain ⟨budget, rfl⟩ := Nat.exists_eq_add_one.2 hb
  exact collectSamples_inactive budget s h

/-- What `LD BBUF`, `WR A_WIDTH` and SMPSTART leave (R65, R94). -/
def State.startSamples (s : State) (w : Byte) (body : List Byte) : State :=
  { s.loadBbuf body with aWidth := w }.startSequence w.toNat

section StartSamples

variable {s : State} {w : Byte} {body : List Byte}

theorem runScript_getSamplesLine (hbody : body.length ≤ 65535) (k : Nat) :
    runScript (getSamplesLine w body k) s = runScript (List.replicate k (.issue 5)) (s.startSamples w body) := by
  have hstart : exec .smpstart { s.loadBbuf body with aWidth := w } = .next (s.startSamples w body) := rfl
  have hissue : runScript [.write .aWidth w, .issue 4] (s.loadBbuf body) =
      .next ((s.startSamples w body).withPending []) :=
    (runScript_cons ..).trans (runScript_issue hstart)
  rw [getSamplesLine, runScript_append, runScript_append, runScript_ldBbuf s hbody, thenRun_withPending, hissue,
    thenRun_withPending]

theorem startSamples_of_strideOf {k : Nat} (hw : strideOf w.toNat = .ok k) :
    s.startSamples w body = { s.loadBbuf body with
      aWidth := w, sActive := 1, sStride := BitVec.ofNat 3 k, sPos := 0, rSample := 0, status := 0x01 } :=
  Host.Outcome.next.inj (exec_smpstart_of_strideOf (s := { s.loadBbuf body with aWidth := w }) hw)

theorem startSamples_of_refused {e : ErrorKind} (hw : strideOf w.toNat = .err e) :
    s.startSamples w body = { s.loadBbuf body with
      aWidth := w, sActive := 0, sStride := 0, sPos := 0, rSample := 0, status := 0x0C } :=
  Host.Outcome.next.inj (exec_smpstart_of_refused (s := { s.loadBbuf body with aWidth := w }) hw)

/-- After a legal width the elements of the whole body are ahead. -/
theorem startSamples_yields (hbody : body.length ≤ 65535) {k : Nat} (hw : strideOf w.toNat = .ok k) :
    Yields (s.startSamples w body) (samplesOf s.cfg k body) := by
  obtain ⟨h1, h4, -⟩ := strideOf_ok _ _ hw
  have hk : (BitVec.ofNat 3 k).toNat = k := by
    rw [BitVec.toNat_ofNat]
    omega
  rw [startSamples_of_strideOf hw]
  refine ⟨by simp, hk.symm ▸ h1, ?_⟩
  dsimp only
  rw [hk]
  exact congrArg (samplesOf s.cfg k) (State.memRead_stored (s := s) rfl rfl hbody)

/-- The lines of GETSAMPLES as far as SMPSTART (R65). -/
theorem runScript_getSamplesLine_zero (hbody : body.length ≤ 65535) :
    runScript (getSamplesLine w body 0) s = .next ((s.startSamples w body).withPending []) :=
  runScript_getSamplesLine hbody 0

/-- After a refused width every SMPNEXT is BadCommand (R98). -/
theorem runScript_getSamplesLine_refused (hbody : body.length ≤ 65535) {e : ErrorKind}
    (hw : strideOf w.toNat = .err e) (n : Nat) :
    ∃ t, runScript (getSamplesLine w body (n + 1)) s = .next t ∧ t.status = 0x1C := by
  have hnone : HostAction.issue 4 ∉ List.replicate n (HostAction.issue 5) := by simp
  have hstart : (s.startSamples w body).sActive = 0 := by rw [startSamples_of_refused hw]
  obtain ⟨t, ht, hinactive⟩ := runScript_inactive _ hnone _ hstart
  rw [runScript_getSamplesLine hbody]
  exact ⟨_, runScript_smpnexts ht (exec_smpnext_inactive hinactive), rfl⟩

/-- After a legal width SMPNEXT number `n + 1` reports element `n` of the body, or the end (R98). -/
theorem runScript_getSamplesLine_reports (hbody : body.length ≤ 65535) {k : Nat}
    (hw : strideOf w.toNat = .ok k) (n : Nat) :
    ∃ t, runScript (getSamplesLine w body (n + 1)) s = .next t ∧ reports t (samplesOf s.cfg k body)[n]? := by
  obtain ⟨t, ht, hahead⟩ := (startSamples_yields (s := s) hbody hw).run n
  obtain ⟨u, hu, hreport, -⟩ := hahead.smpnext
  rw [List.head?_drop] at hreport
  rw [runScript_getSamplesLine hbody]
  exact ⟨_, runScript_smpnexts ht hu, hreport⟩

/-- GETSAMPLES is its loop after the lines (R65). -/
theorem runGetSamples_eq (hbody : body.length ≤ 65535) :
    runGetSamples w body s = collectSamples (body.length + 1) ((s.startSamples w body).withPending []) := by
  rw [runGetSamples, runScript_getSamplesLine_zero hbody]

/-- The loop after the lines ends the same way whatever bound above the length of the body it is given, with the
elements of `getSamples` and the end, or with none and BadCommand (R65; log entry 14). -/
theorem collectSamples_startSamples (hbody : body.length ≤ 65535) :
    ∃ es t, (∀ budget, body.length < budget →
        collectSamples budget ((s.startSamples w body).withPending []) = .next (es, t)) ∧
      match getSamples s.cfg w.toNat body with
      | .err _ => es = [] ∧ t.status = 0x1C
      | .ok l => es = l ∧ t.status = 0x03 := by
  rcases strideOf_cases w.toNat with ⟨k, -, -, -, hw⟩ | ⟨-, -, -, -, hw⟩
  · obtain ⟨t, ht, hcollect⟩ := ((startSamples_yields (s := s) hbody hw).withPending []).collect
    have hlen : (samplesOf s.cfg k body).length ≤ body.length := by
      rw [length_samplesOf]
      exact Nat.div_le_self ..
    rw [getSamples_of_strideOf hw]
    exact ⟨_, t, fun budget hb => hcollect budget (by omega), rfl, ht⟩
  · obtain ⟨t, ht, hcollect⟩ := collectSamples_of_inactive (s := (s.startSamples w body).withPending [])
      (by rw [startSamples_of_refused hw]; rfl)
    rw [getSamples_of_refused hw]
    exact ⟨[], t, fun budget hb => hcollect budget (Nat.zero_lt_of_lt hb), rfl, ht⟩

end StartSamples

/-- Settles O39: after the lines of GETSAMPLES the elements of the body are ahead, and each SMPNEXT takes one. -/
theorem iteratorIsGetSamples : Obligations.IteratorIsGetSamples := by
  constructor
  · intro s body w k hbody
    rcases strideOf_cases w.toNat with ⟨stride, -, -, -, hw⟩ | ⟨-, -, -, -, hw⟩
    · rw [getSamples_of_strideOf hw]
      cases k with
      | zero =>
        refine ⟨_, runScript_getSamplesLine_zero hbody, fun _ => ?_, fun n hn => absurd hn n.succ_ne_zero.symm⟩
        rw [startSamples_of_strideOf hw]
        rfl
      | succ n =>
        obtain ⟨t, ht, hreport⟩ := runScript_getSamplesLine_reports (s := s) hbody hw n
        refine ⟨t, ht, fun hn => absurd hn n.succ_ne_zero, fun m hm => ?_⟩
        obtain rfl := Nat.succ.inj hm
        exact hreport
    · rw [getSamples_of_refused hw]
      cases k with
      | zero =>
        refine ⟨_, runScript_getSamplesLine_zero hbody, rfl, ?_⟩
        rw [startSamples_of_refused hw]
        rfl
      | succ n =>
        obtain ⟨t, ht, hstatus⟩ := runScript_getSamplesLine_refused (s := s) hbody hw n
        exact ⟨t, ht, rfl, hstatus⟩
  · intro s body w hbody
    obtain ⟨es, t, hcollect, hanswer⟩ := collectSamples_startSamples (s := s) (w := w) hbody
    exact ⟨_, es, t, runScript_getSamplesLine_zero hbody,
      (runGetSamples_eq hbody).trans (hcollect _ (Nat.lt_succ_self _)), hcollect, hanswer⟩

end Sys2Proof.Machine

/-! ## Errors (60_exceptions.md): what each command can raise (R104, R107), the exact causes of each error (R105, R106,
R108, R109), the failed DEC (R113), and the statements they settle -/

namespace Sys2Proof.Machine

/-! ### Every instruction succeeds or raises (R104, R107) -/

/-- The result group that a row owns (R20, R107): a DEC row that of DEC, a SMPSTART row that of SMPSTART. -/
def groupOf : Instr → ResultGroup
  | .hdrpack => .hdrpack
  | .hdrunpk => .hdrunpk
  | .enc => .enc
  | .dec | .decT0 _ | .decT1 _ | .decT2 _ | .decT3 _ | .decT4 _ | .decT5 _ | .decT6 _ | .decT7 _ => .dec
  | .smpstart | .smpstartW8 | .smpstartW16 | .smpstartW24 | .smpstartW32 => .smpstart
  | .smpnext => .smpnext
  | .reserved6 | .reserved7 => .reserved

/-- The errors that a row can raise (R104). A row of format WIDTH8 has a legal width, so it raises none. -/
def errorsOf : Instr → List ErrorKind
  | .hdrpack | .hdrunpk | .enc => [.framing]
  | .dec | .decT0 _ | .decT1 _ | .decT2 _ | .decT3 _ | .decT4 _ | .decT5 _ | .decT6 _ | .decT7 _ =>
    [.framing, .unknownItemCode]
  | .smpstart => [.unsupportedSampleWidth]
  | .smpstartW8 | .smpstartW16 | .smpstartW24 | .smpstartW32 => []
  | .smpnext | .reserved6 | .reserved7 => [.badCommand]

section Errors

variable {i : Instr} {s t : State}

theorem errorsOf_dec (h : i = .dec ∨ i.headerFields.isSome = true) :
    errorsOf i = [.framing, .unknownItemCode] ∧ groupOf i = .dec := by
  cases i <;> simp [Instr.headerFields, errorsOf, groupOf] at h ⊢

theorem errorsOf_widthRow (h : i.sampleWidth.isSome = true) : errorsOf i = [] ∧ i ≠ .smpnext := by
  cases i <;> simp [Instr.sampleWidth, errorsOf] at h ⊢

/-- The three ways an instruction ends: success, the end of a sequence, or one of its errors raised. -/
theorem ExecEffect.succeeds_or_raises (h : ExecEffect s i t) :
    t.status = 0x01 ∨ (i = .smpnext ∧ t.status = 0x03) ∨ ∃ e ∈ errorsOf i, t = s.raise (groupOf i) e := by
  cases h with
  | hdrpackOk | hdrunpkOk | encOk | smpstartOk | smpstartRow | smpnextSample => exact .inl rfl
  | smpnextEnd => exact .inr (.inl ⟨rfl, rfl⟩)
  | hdrpackErr | hdrunpkErr | encErr | smpstartErr | smpnextInactive =>
    exact .inr (.inr ⟨_, List.mem_singleton_self _, rfl⟩)
  | reserved i h => rcases h with rfl | rfl <;> exact .inr (.inr ⟨_, List.mem_singleton_self _, rfl⟩)
  | decHeaded i ty lenf h =>
    obtain ⟨herr, hgroup⟩ := errorsOf_dec (i := i) (h.imp And.left fun h => by rw [h]; rfl)
    rw [herr, hgroup]
    rcases s.decHeaded_cases ty lenf with ⟨f, e, -⟩ | ⟨k, e, hk⟩ <;> rw [e]
    · exact .inl rfl
    · exact .inr (.inr ⟨k, by simpa using hk, rfl⟩)

theorem statusOK_end : statusOK 0x03 = true := by decide

/-- R107: when `OK` is 0 an error was raised, which cleared the result group. -/
theorem raises_of_exec (h : exec i s = .next t) (hfail : statusOK t.status = false) :
    ∃ e ∈ errorsOf i, t = s.raise (groupOf i) e := by
  rcases (effect_of_exec _ _ _ h).succeeds_or_raises with h1 | ⟨-, h3⟩ | hraise
  · rw [h1] at hfail
    exact absurd hfail (by simp)
  · rw [h3, statusOK_end] at hfail
    cases hfail
  · exact hraise

/-- The code in `STATUS` names the error (R104). -/
theorem statusFailure_inj {e k : ErrorKind} : statusFailure e = statusFailure k ↔ e = k := by
  cases e <;> cases k <;> simp

/-- R104: an instruction leaves no code but those of its own errors. -/
theorem mem_errorsOf_of_status {e : ErrorKind} (h : exec i s = .next t) (hstatus : t.status = statusFailure e) :
    e ∈ errorsOf i := by
  obtain ⟨k, hk, rfl⟩ := raises_of_exec h (hstatus ▸ statusOK_failure e)
  exact statusFailure_inj.1 hstatus ▸ hk

/-! Which instructions have an error among theirs. -/

theorem framing_mem_errorsOf (h : .framing ∈ errorsOf i) :
    i = .hdrpack ∨ i = .hdrunpk ∨ i = .enc ∨ i = .dec ∨ i.headerFields.isSome = true := by
  cases i <;> simp [errorsOf, Instr.headerFields] at h ⊢

theorem unknownItemCode_mem_errorsOf (h : .unknownItemCode ∈ errorsOf i) :
    i = .dec ∨ i.headerFields.isSome = true := by
  cases i <;> simp [errorsOf, Instr.headerFields] at h ⊢

theorem unsupportedSampleWidth_mem_errorsOf (h : .unsupportedSampleWidth ∈ errorsOf i) : i = .smpstart := by
  cases i <;> simp [errorsOf] at h ⊢

theorem badCommand_mem_errorsOf (h : .badCommand ∈ errorsOf i) : i = .reserved6 ∨ i = .reserved7 ∨ i = .smpnext := by
  cases i <;> simp [errorsOf] at h ⊢

end Errors

/-- Settles O8: every instruction and every action of the host is answered. -/
theorem everyStepCompletes : Obligations.EveryStepCompletes := by
  refine ⟨fun i s => ?_, fun s => ?_⟩
  · obtain ⟨t, h, -⟩ := exec_effect i s
    exact ⟨t, h⟩
  · cases hp : s.pending with
    | nil => exact ⟨s, step_of_nil hp⟩
    | cons a rest =>
      rw [step_of_pending hp]
      exact exists_perform _ a

/-- Settles O47: success, the end of a sequence, or the code of an error of the row. -/
theorem statusValueByCommand : Obligations.StatusValueByCommand := by
  refine ⟨fun i s t h => ?_, rfl⟩
  have hstatus : t.status = 0x01 ∨ (i = .smpnext ∧ t.status = 0x03) ∨
      ∃ e ∈ errorsOf i, t.status = statusFailure e := by
    refine (effect_of_exec _ _ _ h).succeeds_or_raises.imp_right (Or.imp_right ?_)
    rintro ⟨e, he, rfl⟩
    exact ⟨e, he, rfl⟩
  refine ⟨?_, fun hi => ?_, ?_, fun hi => ?_, ?_, ?_⟩
  · rintro (rfl | rfl | rfl) <;> simpa [errorsOf] using hstatus
  · obtain ⟨herr, -⟩ := errorsOf_dec hi
    have hne : i ≠ .smpnext := by rintro rfl; simp [Instr.headerFields] at hi
    simpa [herr, hne] using hstatus
  · rintro rfl
    simpa [errorsOf] using hstatus
  · obtain ⟨herr, hne⟩ := errorsOf_widthRow hi
    simpa [herr, hne] using hstatus
  · rintro rfl
    simpa [errorsOf] using hstatus
  · rintro (rfl | rfl) <;> cases h <;> rfl

/-- Settles O46: the error raised is one of the row's, and `raise` clears the row's group. -/
theorem failureClearsTheResultGroup : Obligations.FailureClearsTheResultGroup := by
  intro i s t h hfail
  obtain ⟨e, he, rfl⟩ := raises_of_exec h hfail
  have hsingle {k : ErrorKind} {g : ResultGroup} (hk : errorsOf i = [k]) (hg : groupOf i = g) :
      s.raise (groupOf i) e = s.raise g k := by
    rw [hk] at he
    rw [hg, List.mem_singleton.1 he]
  refine ⟨?_, ?_, ?_, fun hi => ?_, ?_, ?_, ?_⟩
  · rintro rfl; exact hsingle rfl rfl
  · rintro rfl; exact hsingle rfl rfl
  · rintro rfl; exact hsingle rfl rfl
  · obtain ⟨herr, hgroup⟩ := errorsOf_dec hi
    rw [herr, List.mem_pair] at he
    rw [hgroup]
    exact ⟨he.imp (fun h => by rw [h]; rfl) (fun h => by rw [h]; rfl), rfl⟩
  · rintro rfl; exact hsingle rfl rfl
  · rintro rfl; exact hsingle rfl rfl
  · rintro (rfl | rfl) <;> exact hsingle rfl rfl

/-- SMPNEXT with an active sequence succeeds: it reports a sample or the end (R95). -/
theorem statusOK_of_smpnext {s t : State} (hactive : s.sActive ≠ 0) (h : exec .smpnext s = .next t) :
    statusOK t.status = true := by
  rcases Nat.lt_or_ge s.blen.toNat (s.sPos.toNat + s.sStride.toNat) with hlt | hle
  · rw [exec_smpnext_end hactive hlt] at h
    cases h
    exact statusOK_end
  · rw [exec_smpnext_sample hactive hle] at h
    cases h
    exact statusOK_success

/-- Settles O45: a code that no other row raises, and SMPNEXT raises it only with no sequence. -/
theorem badCommandExactlyWhen : Obligations.BadCommandExactlyWhen := by
  refine ⟨fun s => ⟨rfl, rfl⟩, fun i s t h => ⟨fun hstatus => ?_, ?_⟩⟩
  · rcases badCommand_mem_errorsOf (mem_errorsOf_of_status h hstatus) with hi | hi | rfl
    · exact .inl hi
    · exact .inr (.inl hi)
    · refine .inr (.inr ⟨rfl, ?_⟩)
      by_contra hactive
      have hok := statusOK_of_smpnext hactive h
      rw [hstatus] at hok
      exact absurd hok (by decide)
  · rintro (rfl | rfl | ⟨rfl, hinactive⟩)
    · cases h; rfl
    · cases h; rfl
    · rw [exec_smpnext_inactive hinactive] at h
      cases h
      rfl

/-- Settles O44: no other row raises it, and SMPSTART refuses exactly the widths that have no stride. -/
theorem unsupportedSampleWidthExactlyWhen : Obligations.UnsupportedSampleWidthExactlyWhen := by
  intro i s t h
  rw [mem_legalWidths_iff]
  refine ⟨fun hstatus => ?_, ?_⟩
  · obtain rfl := unsupportedSampleWidth_mem_errorsOf (mem_errorsOf_of_status h hstatus)
    refine ⟨rfl, fun hlegal => ?_⟩
    rw [exec_smpstart_of_strideOf (if_pos hlegal)] at h
    cases h
    exact absurd hstatus (by decide : (0x01 : Byte) ≠ 0x0C)
  · rintro ⟨rfl, hillegal⟩
    rw [exec_smpstart_of_refused (strideOf_err hillegal)] at h
    cases h
    rfl

/-- Settles O25: no row but DEC and its own raises it, and for DEC the cause is that of O60 on the header in IBUF. -/
theorem unknownItemCodeExactlyWhen : Obligations.UnknownItemCodeExactlyWhen := by
  refine fun s => ⟨fun i t h hstatus => unknownItemCode_mem_errorsOf (mem_errorsOf_of_status h hstatus), ?_⟩
  generalize hhdr : le16 (s.byteOf .ibuf 0) (s.byteOf .ibuf 1) = hdr
  obtain ⟨t, h, hiff, hcleared⟩ := decOfAnUnrecognisedItemCode s (headerType hdr) (headerLenf hdr) .dec
    (.inl ⟨rfl, hhdr.trans (mkHeader_fields hdr).symm⟩)
  rw [mkHeader_fields] at hiff
  refine ⟨t, h, hiff.trans ⟨?_, ?_⟩, fun hstatus => ?_⟩
  · rintro ⟨hunpack, h4, hctl, hitem⟩
    exact ⟨h4, _, hunpack, hctl, hitem⟩
  · rintro ⟨h4, ty, hunpack, hctl, hitem⟩
    obtain rfl := ((unpackHeader_eq ..).1 hunpack).1
    exact ⟨hunpack, h4, hctl, hitem⟩
  · rw [hcleared hstatus]
    exact ⟨rfl, rfl⟩

/-! ### The exact causes of FramingError (R105) -/

/-- A command whose writes follow a result leaves the code of an error exactly when that error is the result. -/
theorem status_eq_failure_iff {α : Type} {finish : Result ErrorKind α → State}
    (hok : ∀ v, (finish (.ok v)).status = 0x01) (herr : ∀ e, (finish (.err e)).status = statusFailure e)
    (r : Result ErrorKind α) (e : ErrorKind) : (finish r).status = statusFailure e ↔ r = .err e := by
  cases r with
  | ok v =>
    refine ⟨fun h => absurd (statusOK_failure e) ?_, fun h => by cases h⟩
    rw [← h, hok]
    decide
  | err k => rw [herr, statusFailure_inj, Result.err.injEq]

section Framing

variable {cfg : Config} {t : FrameType}

theorem packHeader_eq_err_iff {total : Nat} : packHeader cfg t total = .err .framing ↔
    total < 2 ∨ cfg.cap < total ∨ (8191 < total ∧ ¬ (total = cfg.cap ∧ isData cfg t = true)) := by
  refine ⟨fun h => ?_, ?_⟩
  · rcases packHeader_cases cfg t total with ⟨-, -, -, e⟩ | ⟨-, -, -, -, e⟩ | ⟨hbad, -⟩
    · rw [e] at h; cases h
    · rw [e] at h; cases h
    · exact hbad
  · rintro (h2 | hcap | ⟨hmax, hne⟩)
    · exact packHeader_of_out_of_bounds (.inl h2)
    · exact packHeader_of_out_of_bounds (.inr hcap)
    · exact packHeader_of_too_long hmax hne

theorem encodeFrame_eq_err_iff {code : Half} {payload : List Byte} {e : ErrorKind} :
    encodeFrame cfg t code payload = .err e ↔ packHeader cfg t (4 + payload.length) = .err e := by
  refine ⟨fun h => ?_, encodeFrame_of_err cfg t code payload e⟩
  cases hp : packHeader cfg t (4 + payload.length) with
  | ok hdr =>
    rw [encodeFrame_of_ok cfg t code hdr payload hp] at h
    cases h
  | err k =>
    rw [encodeFrame_of_err cfg t code payload k hp] at h
    cases h
    rfl

variable {hdr : Half}

/-- The headers that declare no length are the illegal ones of R61. -/
theorem illegalHeader_of_declaredLength_err (hcfg : cfg.capAtLeastTwo)
    (h : declaredLength cfg (headerType hdr) (headerLenf hdr) = .err .framing) : illegalHeader cfg hdr := by
  rcases declaredLength_cases cfg (headerType hdr) (headerLenf hdr) with ⟨-, -, -, e⟩ | ⟨-, -, e⟩ | ⟨hbad, -⟩
  · rw [e] at h; cases h
  · rw [e] at h; cases h
  · rcases hbad with ⟨h0, hctl | hcap⟩ | h1 | hlt
    · exact .inl ⟨h0, hctl⟩
    · omega
    · exact .inr (.inl h1)
    · exact illegalHeader_of_toNat (.inr (.inr hlt))

theorem unpackHeader_eq_err_iff (hcfg : cfg.capAtLeastTwo) :
    unpackHeader cfg hdr = .err .framing ↔ illegalHeader cfg hdr := by
  refine ⟨fun h => ?_, unpackHeader_of_illegal⟩
  cases hd : declaredLength cfg (headerType hdr) (headerLenf hdr) with
  | ok d =>
    rw [unpackHeader_of_declared hd] at h
    cases h
  | err e =>
    obtain rfl := declaredLength_err _ _ _ _ hd
    exact illegalHeader_of_declaredLength_err hcfg hd

theorem announcedLength_of_declaredLength {lenf : LenField} {n : Nat} (h : declaredLength cfg t lenf = .ok n) :
    announcedLength cfg t lenf = some n := by
  unfold declaredLength at h
  split at h
  · cases h
  · split at h <;> cases h
    assumption

/-- A header declares `n` when it is legal and announces `n` (R61, R68). -/
theorem declaredLength_eq_ok_iff (hcfg : cfg.capAtLeastTwo) {n : Nat} :
    declaredLength cfg (headerType hdr) (headerLenf hdr) = .ok n ↔
      ¬ illegalHeader cfg hdr ∧ announcedLength cfg (headerType hdr) (headerLenf hdr) = some n := by
  refine ⟨fun h => ⟨fun hill => ?_, announcedLength_of_declaredLength h⟩, fun ⟨hlegal, hn⟩ => ?_⟩
  · have hunpack := unpackHeader_of_illegal hill
    rw [unpackHeader_of_declared h] at hunpack
    cases hunpack
  · cases hd : declaredLength cfg (headerType hdr) (headerLenf hdr) with
    | ok d =>
      rw [announcedLength_of_declaredLength hd] at hn
      cases hn
      rfl
    | err e =>
      obtain rfl := declaredLength_err _ _ _ _ hd
      exact absurd (illegalHeader_of_declaredLength_err hcfg hd) hlegal

/-- Step (7) is past every framing check (R79). -/
theorem decodeVariant_ne_framing {n : Nat} {code : Half} {body : List Byte} :
    decodeVariant cfg t n code body ≠ .err .framing := by
  rcases decodeVariant_cases cfg t n code body with ⟨-, e⟩ | ⟨-, -, e⟩ | ⟨-, -, e⟩ <;> rw [e] <;> simp

/-- DEC on a header reports FramingError exactly for a frame that does not reach step (7) (R79, R105). -/
theorem State.decHeaded_status_framing_iff {s : State} {lenf : LenField} :
    (s.decHeaded t lenf).status = 0x04 ↔
      s.ilen.toNat < 4 ∨ declaredLength s.cfg t lenf ≠ .ok s.ilen.toNat := by
  refine ⟨fun h => ?_, fun h => by rw [State.decHeaded_of_malformed h]; rfl⟩
  by_contra hgood
  obtain ⟨h4, hd⟩ : 4 ≤ s.ilen.toNat ∧ declaredLength s.cfg t lenf = .ok s.ilen.toNat := by
    simpa only [not_or, not_lt, not_not] using hgood
  rw [State.decHeaded_of_declared h4 hd] at h
  exact decodeVariant_ne_framing ((status_eq_failure_iff (fun _ => rfl) (fun _ => rfl) _ .framing).1 h)

end Framing

/-- Settles O43: HDRPACK and ENC by what packs, HDRUNPK by what unpacks, DEC by what reaches step (7). -/
theorem framingErrorExactlyWhen : Obligations.FramingErrorExactlyWhen := by
  rintro s t ⟨hcfg, -, -⟩
  refine ⟨fun h => ?_, fun h => ?_, fun h => ?_, fun h => ?_, fun i h hstatus => ?_⟩
  · rw [exec_hdrpack] at h
    cases h
    exact (status_eq_failure_iff (fun _ => rfl) (fun _ => rfl) _ .framing).trans packHeader_eq_err_iff
  · have h2 : ¬ 4 + s.ilen.toNat < 2 := by omega
    rw [exec_enc] at h
    cases h
    refine (status_eq_failure_iff (fun _ => rfl) (fun _ => rfl) _ .framing).trans ?_
    rw [encodeFrame_eq_err_iff, State.length_memRead, packHeader_eq_err_iff, or_iff_right h2]
  · rw [exec_hdrunpk] at h
    cases h
    exact (status_eq_failure_iff (fun _ => rfl) (fun _ => rfl) _ .framing).trans (unpackHeader_eq_err_iff hcfg)
  · rw [exec_dec] at h
    cases h
    generalize le16 (s.byteOf .ibuf 0) (s.byteOf .ibuf 1) = hdr
    have hshort : s.ilen.toNat < 4 ↔ s.ilen.toNat < 2 ∨ s.ilen.toNat = 2 ∨ s.ilen.toNat = 3 := by omega
    have hannounced : (∀ d, announcedLength s.cfg (headerType hdr) (headerLenf hdr) = some d → d ≠ s.ilen.toNat) ↔
        announcedLength s.cfg (headerType hdr) (headerLenf hdr) ≠ some s.ilen.toNat :=
      ⟨fun h hn => h _ hn rfl, fun h d hd hn => h (hn ▸ hd)⟩
    rw [State.decHeaded_status_framing_iff, Ne, declaredLength_eq_ok_iff hcfg, hshort, hannounced]
    tauto
  · exact framing_mem_errorsOf (mem_errorsOf_of_status h hstatus)

/-! ### After a failed DEC (R113) -/

/-- A code that is issued first, then the rest of the host's actions. -/
theorem runScript_issue_cons {s t : State} {op : BitVec 3} (h : exec (decodeCmd op) s = .next t)
    (as : List HostAction) : runScript (.issue op :: as) s = runScript as t := by
  have hp : perform s (.issue op) = .next t := (exec_issuedRow s op).trans h
  rw [runScript_cons, hp]
  rfl

/-- A sequence started on an empty body is at its end at once (R95). -/
theorem runScript_smpstart_of_empty {s : State} {w : Byte} {k : Nat} (hw : strideOf w.toNat = .ok k)
    (hblen : s.blen = 0) :
    ∃ u, runScript [.write .aWidth w, .issue 4, .issue 5] s = .next u ∧ u.status = 0x03 ∧ u.rSample = 0 := by
  obtain ⟨h1, h4, -⟩ := strideOf_ok _ _ hw
  have hwrite : runScript [.write .aWidth w, .issue 4, .issue 5] s =
      runScript [.issue 4, .issue 5] { s with aWidth := w } := runScript_cons ..
  have hstart := exec_smpstart_of_strideOf (s := { s with aWidth := w }) hw
  have hend := exec_smpnext_end (s := { s with
    aWidth := w, sActive := 1, sStride := BitVec.ofNat 3 k, sPos := 0, rSample := 0, status := 0x01 })
    (by simp) (by simp [hblen]; omega)
  exact ⟨_, (hwrite.trans (runScript_issue_cons (op := 4) hstart _)).trans (runScript_issue (op := 5) hend), rfl, rfl⟩

/-- Settles O42: a failed DEC leaves no sequence and an empty body. -/
theorem noSampleOfAStaleBodyAfterAFailedDec : Obligations.NoSampleOfAStaleBodyAfterAFailedDec := by
  intro s t w h hfail hw
  obtain ⟨e, -, rfl⟩ := raises_of_exec h hfail
  exact ⟨⟨_, runScript_smpnext_inactive rfl, rfl, rfl⟩,
    runScript_smpstart_of_empty (if_pos ((mem_legalWidths_iff w).1 hw)) rfl⟩

end Sys2Proof.Machine

/-! ## Reset and hazards (70_reset_and_hazards.md): the parameters over a step (R121), the first command after reset
(R122), STATUS between commands (R124), and the statements they settle -/

namespace Sys2Proof.Machine

/-! ### The parameters (R121) -/

@[simp] theorem State.hostWrite_cfg (s : State) (r : Reg) (v : BitVec r.width) : (s.hostWrite r v).cfg = s.cfg := by
  cases r <;> rfl

@[simp] theorem State.hostWriteByte_cfg (s : State) (b : Buf) (k : Nat) (v : Byte) :
    (s.hostWriteByte b k v).cfg = s.cfg := by
  cases b <;> rfl

/-- No instruction writes the parameters (R6, R121). -/
theorem ExecEffect.cfg_eq {i : Instr} {s t : State} (h : ExecEffect s i t) : t.cfg = s.cfg := by
  cases h
  case decHeaded ty lenf _ =>
    obtain ⟨hcfg, -⟩ := s.decHeaded_sameOperands ty lenf
    exact hcfg
  all_goals rfl

/-- No action of the host writes the parameters, a reset included (R121). -/
theorem cfg_of_perform {s t : State} {a : HostAction} (h : perform s a = .next t) : t.cfg = s.cfg := by
  cases a with
  | issue op => exact (effect_of_exec _ _ _ h).cfg_eq
  | write r v => cases h; exact s.hostWrite_cfg r v
  | writeByte b k v => cases h; exact s.hostWriteByte_cfg b k.val v
  | read r => cases h; rfl
  | readByte b k => cases h; rfl
  | reset => cases h; rfl

/-- Settles O12: a step performs one action of the host or none, and none writes the parameters. -/
theorem parametersNeverChange : Obligations.ParametersNeverChange := by
  intro s t h
  rcases step_cases h with ⟨-, rfl⟩ | ⟨a, rest, -, h⟩
  · rfl
  · exact (cfg_of_perform h).trans rfl

/-! ### No command reads STATUS (R124) -/

section OldStatus

variable {i : Instr} (s : State) (v : Byte)

@[simp] theorem State.setStatus_memRead (b : Buf) (k n : Nat) : (s.setStatus v).memRead b k n = s.memRead b k n :=
  State.memRead_congr _ _ _ _ _ _ _ fun _ _ => by simp

theorem State.finishDec_setStatus (r : Result ErrorKind DecodedFrame) :
    (s.setStatus v).finishDec r = s.finishDec r := by
  cases r <;> rfl

theorem State.startSequence_setStatus (w : Nat) : (s.setStatus v).startSequence w = s.startSequence w := by
  unfold State.startSequence
  cases strideOf w <;> rfl

theorem State.takeSample_setStatus : (s.setStatus v).takeSample = s.takeSample := by
  rw [State.takeSample, State.setStatus_memRead]
  rfl

/-- The old `STATUS` does not matter to a command that writes a function of what it reads, if it does not read
`STATUS` and its writes overwrite it. -/
theorem exec_setStatus_of_writes {ρ : Type} (reads : State → ρ) (writes : State → ρ → State)
    (hexec : ∀ s, exec i s = .next (writes s (reads s))) (hreads : reads (s.setStatus v) = reads s)
    (hwrites : ∀ r, writes (s.setStatus v) r = writes s r) : exec i (s.setStatus v) = exec i s := by
  rw [hexec, hexec, hreads, hwrites]

theorem exec_setStatus_headerRow {f : FrameType × LenField} (hf : i.headerFields = some f) :
    exec i (s.setStatus v) = exec i s :=
  exec_setStatus_of_writes s v
    (fun s => decodeHeaded s.cfg f.1 f.2 s.ilen.toNat (s.memRead .ibuf 2 (s.ilen.toNat - 2))) State.finishDec
    (fun s => exec_of_headerFields i s f.1 f.2 hf) (by simp) (s.finishDec_setStatus v)

theorem exec_setStatus_smpstart : exec .smpstart (s.setStatus v) = exec .smpstart s :=
  exec_setStatus_of_writes s v (fun s => s.aWidth.toNat) State.startSequence (fun _ => rfl) rfl
    (s.startSequence_setStatus v)

theorem exec_setStatus_widthRow {w : Byte} (hw : i.sampleWidth = some w) :
    exec i (s.setStatus v) = exec i s := by
  rw [exec_of_sampleWidth hw, exec_of_sampleWidth hw]
  exact exec_setStatus_smpstart { s with aWidth := w } v

theorem exec_setStatus_smpnext : exec .smpnext (s.setStatus v) = exec .smpnext s := by
  by_cases hactive : s.sActive = 0
  · rw [exec_smpnext_inactive hactive]
    exact exec_smpnext_inactive hactive
  rcases Nat.lt_or_ge s.blen.toNat (s.sPos.toNat + s.sStride.toNat) with hlt | hle
  · rw [exec_smpnext_end hactive hlt]
    exact exec_smpnext_end hactive hlt
  · rw [exec_smpnext_sample hactive hle, ← s.takeSample_setStatus v]
    exact exec_smpnext_sample (s := s.setStatus v) hactive hle

/-- Every instruction overwrites `STATUS` and reads none of it (R22, R124). -/
theorem exec_setStatus (i : Instr) : exec i (s.setStatus v) = exec i s := by
  cases i with
  | hdrpack =>
    exact exec_setStatus_of_writes s v _ State.finishHdrpack exec_hdrpack rfl fun r => by cases r <;> rfl
  | hdrunpk =>
    exact exec_setStatus_of_writes s v _ State.finishHdrunpk exec_hdrunpk rfl fun r => by cases r <;> rfl
  | enc =>
    exact exec_setStatus_of_writes s v _ State.finishEnc exec_enc (by simp) fun r => by cases r <;> rfl
  | dec =>
    exact exec_setStatus_of_writes s v (fun s => decodeFrame s.cfg (s.memRead .ibuf 0 s.ilen.toNat))
      State.finishDec (fun _ => rfl) (by simp) (s.finishDec_setStatus v)
  | smpstart => exact exec_setStatus_smpstart s v
  | smpnext => exact exec_setStatus_smpnext s v
  | reserved6 | reserved7 => rfl
  | decT0 | decT1 | decT2 | decT3 | decT4 | decT5 | decT6 | decT7 => exact exec_setStatus_headerRow s v rfl
  | smpstartW8 | smpstartW16 | smpstartW24 | smpstartW32 => exact exec_setStatus_widthRow s v rfl

end OldStatus

/-! ### When EOS is 1 (R22, R124) -/

section EndOfSequence

variable {i : Instr} {s t : State}

@[simp] theorem statusEOS_success : statusEOS 1#8 = false := by decide
@[simp] theorem statusEOS_end : statusEOS 3#8 = true := by decide
@[simp] theorem statusEOS_failure (e : ErrorKind) : statusEOS (statusFailure e) = false := by
  cases e <;> decide

/-- `EOS` is 0 after every instruction but SMPNEXT (R124). -/
theorem statusEOS_of_ne_smpnext (hi : i ≠ .smpnext) (h : exec i s = .next t) : statusEOS t.status = false := by
  rcases (effect_of_exec _ _ _ h).succeeds_or_raises with hsuccess | ⟨hnext, -⟩ | ⟨e, -, rfl⟩
  · rw [hsuccess]
    exact statusEOS_success
  · exact absurd hnext hi
  · exact statusEOS_failure e

/-- SMPNEXT leaves `EOS` 1 exactly at the end of an active sequence (R95). -/
theorem statusEOS_of_smpnext (h : exec .smpnext s = .next t) :
    statusEOS t.status = true ↔ s.sActive ≠ 0 ∧ s.blen.toNat < s.sPos.toNat + s.sStride.toNat := by
  by_cases hactive : s.sActive = 0
  · rw [exec_smpnext_inactive hactive] at h
    cases h
    exact iff_of_false (by decide : ¬ statusEOS 0x1C = true) fun ⟨hne, _⟩ => hne hactive
  rcases Nat.lt_or_ge s.blen.toNat (s.sPos.toNat + s.sStride.toNat) with hlt | hle
  · rw [exec_smpnext_end hactive hlt] at h
    cases h
    exact iff_of_true statusEOS_end ⟨hactive, hlt⟩
  · rw [exec_smpnext_sample hactive hle] at h
    cases h
    exact iff_of_false (by simp [State.takeSample]) fun ⟨_, hlt⟩ => Nat.not_lt.2 hle hlt

end EndOfSequence

/-- Settles O48: no instruction reads the old `STATUS`, and none but SMPNEXT at the end leaves `EOS` 1. -/
theorem statusIsOverwrittenByEveryCommand : Obligations.StatusIsOverwrittenByEveryCommand := by
  refine fun i s => ⟨fun v => exec_setStatus s v i, fun t h => ?_⟩
  by_cases hi : i = .smpnext
  · subst hi
    rw [statusEOS_of_smpnext h, and_iff_right rfl]
  · rw [statusEOS_of_ne_smpnext hi h]
    exact iff_of_false Bool.false_ne_true fun ⟨hnext, _⟩ => hi hnext

/-! ### The first command after reset (R122) -/

/-- Settles O11: lengths, header, width and iterator are 0 at reset, so every command but ENC raises, and the empty
payload of ENC packs to a frame of 4 bytes. -/
theorem firstCommandAfterReset : Obligations.FirstCommandAfterReset := by
  refine ⟨⟨_, exec_hdrpack_err (by decide), rfl, rfl⟩, ⟨_, exec_hdrunpk_err (.inl ⟨rfl, rfl⟩), rfl⟩, ?_,
    ⟨_, exec_dec_of_decodeFrame (msg := []) rfl rfl, by decide, rfl⟩,
    ⟨_, exec_smpstart_of_refused (strideOf_err (by decide)), rfl⟩, ⟨_, exec_smpnext_inactive rfl, rfl⟩⟩
  have henc : packHeader State.reset.cfg State.reset.aType (4 + State.reset.ilen.toNat) = .ok 0x0004 := by decide
  exact ⟨_, exec_enc_ok henc, by decide, by decide, by decide⟩

end Sys2Proof.Machine
